-- ==== Sys2Proof/Word.lean ====
section
/-! DEFINITION. The machine word and its bytes (R6, R8, R9). -/

namespace Sys2Proof

/-- A register value, a memory word or an instruction word: 16 bits (R6, R9). -/
abbrev Word := BitVec 16

/-- One byte of a register, as LUI and LLI write it (R8, R23). -/
abbrev Byte := BitVec 8

end Sys2Proof
end

