-- ==== Sys2Proof/Config.lean ====
section
/-! DEFINITION. The implementation parameters of R7 and the free values the spec leaves open.
A model takes each parameter as a configuration field; claims quantify over them. -/

namespace Sys2Proof

/-- `MEM_ORG` (R7, R32, R63). -/
inductive MemOrg where
  /-- Instruction and data memories are different arrays. -/
  | separate
  /-- One array holds both. -/
  | unified
  /-- The parameter is kept open: what happens must hold for both organisations (R63). -/
  | unresolved
  deriving DecidableEq, Repr

/-- `SUB_CARRY`: what `c` holds after a subtraction (R7, R121). -/
inductive SubCarry where
  /-- `c` is the adder's carry out; SUC subtracts NOT c. -/
  | notBorrow
  /-- `c` is the borrow out; SUC subtracts c. -/
  | borrow
  deriving DecidableEq, Repr

/-- `STACK_ORDER`: order of the memory access and the pointer update (R7, R200). -/
inductive StackOrder where
  /-- PUSH stores then decrements; POP increments then loads. -/
  | table
  /-- PUSH decrements then stores; POP loads then increments. -/
  | prose
  deriving DecidableEq, Repr

/-- How an immediate field is widened to a word (R7, R10). -/
inductive Extension where
  | zero
  | sign
  deriving DecidableEq, Repr

/-- `UNWRITTEN_READ`: a read of state nothing has written (R7, R36). -/
inductive UnwrittenRead where
  /-- The read raises the model-level fault `UnwrittenRead`. -/
  | fault
  /-- The read returns an arbitrary value, fixed from then on for that location. -/
  | draw
  deriving DecidableEq, Repr

/-- What decode does with a nonzero bit in a position an instruction ignores (R98). -/
inductive IgnoredBits where
  | ignore
  /-- The cautious option: refuse with `NonCanonicalEncoding`. -/
  | refuse
  deriving DecidableEq, Repr

/-- The parameters of R7, constant through a run. -/
structure Config where
  /-- `PC_WIDTH`: width of PC and LR. -/
  pcWidth       : Nat
  /-- `ADDR_WIDTH`: width of a data address; `XLEN` = 16 by default (R7, R50; log 31). -/
  addrWidth     : Nat
  /-- `MEM_WORDS`: data words 0 to `memWords - 1` exist (R58). -/
  memWords      : Nat
  /-- `IMEM_WORDS`: instruction words 0 to `imemWords - 1` exist, unless memory is unified (R58).
  While `MEM_ORG` is kept open it is not tied to `memWords` (log 34). -/
  imemWords     : Nat
  memOrg        : MemOrg
  /-- `RESET_PC`: address of the first instruction fetched. -/
  resetPc       : Word
  subCarry      : SubCarry
  stackOrder    : StackOrder
  /-- `IMM5_ALU_EXT`: imm5 of ADDI ADCI SUBI SUCI CMPI. -/
  imm5Alu       : Extension
  /-- `IMM5_MEM_EXT`: imm5 of LDW STW. -/
  imm5Mem       : Extension
  /-- `IMM5_JMP_EXT`: imm5 of JMP. -/
  imm5Jmp       : Extension
  unwrittenRead : UnwrittenRead
  ignoredBits   : IgnoredBits
  deriving DecidableEq, Repr

namespace Config

/-- The values R7 allows; the ranges of `ADDR_WIDTH` and `IMEM_WORDS` are the model's (log 31). -/
def wf (c : Config) : Bool :=
  decide (1 ≤ c.pcWidth ∧ c.pcWidth ≤ 16 ∧ 1 ≤ c.addrWidth ∧ c.addrWidth ≤ 16 ∧
    1 ≤ c.memWords ∧ c.memWords ≤ 65536 ∧ 1 ≤ c.imemWords ∧ c.imemWords ≤ 65536 ∧
    c.resetPc.toNat < 2 ^ c.pcWidth)

/-- FREE VALUE (log 6): what a read of the data word at an address returns under
`UNWRITTEN_READ = draw` while nothing has written that word (R36); when memory is unified, what a
fetch of it returns too. -/
opaque unwrittenWord : Nat → Word

/-- FREE VALUE (log 10): what a fetch from an address returns under `UNWRITTEN_READ = draw` while
nothing has supplied the instruction word there, unless memory is unified. Applied, while `MEM_ORG` is
kept open, to what data memory holds at that address as well. -/
opaque unwrittenText : Nat → Option Word → Word

/-- FREE VALUE (log 9): whether a fetch sees a store made since the launch to the word it reads,
when memory is unified (R63 leaves it open). Applied to the count of such fetches so far. -/
opaque fetchSeesStore : Nat → Bool

end Config
end Sys2Proof
end

