-- ==== Sys2Proof/Machine/Defaults.lean ====
section
/-! DEFINITION. The values State.reset gives the parameters of R7 and the state the spec leaves
unspecified at reset (R35). -/

namespace Sys2Proof.Machine

/-- The parameters of the machine State.reset describes. The spec's defaults (R7) where it gives
one, but for `UNWRITTEN_READ` (log 4); for the OPEN parameters DESIGN CHOICES (log 2, 7, 23). -/
def resetConfig : Config :=
  { pcWidth := 16, addrWidth := 16, memWords := 65536, imemWords := 65536
    memOrg := .separate, resetPc := 0#16, subCarry := .notBorrow, stackOrder := .table
    imm5Alu := .zero, imm5Mem := .zero, imm5Jmp := .zero
    unwrittenRead := .draw, ignoredBits := .ignore }

/-- What every general register and LR hold at reset: DESIGN CHOICE, the spec gives none (log 1). -/
def resetWord : Word := 0#16

/-- What every flag holds at reset: DESIGN CHOICE, the spec gives none (log 1). -/
def resetFlag : Bool := false

end Sys2Proof.Machine
end

