-- ==== Sys2Proof/Syntax.lean ====
section
/-! DEFINITION. The instructions: one constructor per row of spec/opcode_table.json (R4). -/

namespace Sys2Proof

/-- A general register `R0` to `R7` (R20). -/
inductive Reg where
  | r0 | r1 | r2 | r3 | r4 | r5 | r6 | r7
  deriving DecidableEq, Repr

/-- The instructions, operands in the order of the Syntax column (R101). An immediate is the
unsigned number in its field (R88 to R91); a relative branch carries the signed count of
instructions its imm8 encodes (R92). -/
inductive Instr where
  -- Data Manipulation, addition
  | add (rd ra rb : Reg)
  | addi (rd ra : Reg) (imm5 : Nat)
  | addib (rd : Reg) (imm8 : Nat)
  | adc (rd ra rb : Reg)
  | adci (rd ra : Reg) (imm5 : Nat)
  -- Data Manipulation, subtraction and comparison
  | neg (rd ra : Reg)
  | sub (rd ra rb : Reg)
  | subi (rd ra : Reg) (imm5 : Nat)
  | subib (rd : Reg) (imm8 : Nat)
  | suc (rd ra rb : Reg)
  | suci (rd ra : Reg) (imm5 : Nat)
  | cmp (ra rb : Reg)
  | cmpi (ra : Reg) (imm5 : Nat)
  -- Data Manipulation, logic
  | and (rd ra rb : Reg)
  | or (rd ra rb : Reg)
  | xor (rd ra rb : Reg)
  | not (rd ra : Reg)
  | nand (rd ra rb : Reg)
  | nor (rd ra rb : Reg)
  -- Data Manipulation, shifts
  | lsl (rd ra : Reg) (imm4 : Nat)
  | lsr (rd ra : Reg) (imm4 : Nat)
  | asr (rd ra : Reg) (imm4 : Nat)
  -- Data Transfer
  | ldw (rd ra : Reg) (imm5 : Nat)
  | stw (rd ra : Reg) (imm5 : Nat)
  -- Byte Immediate loads
  | lui (rd : Reg) (imm8 : Nat)
  | lli (rd : Reg) (imm8 : Nat)
  -- Control Transfer
  | br (off : Int)
  | bne (off : Int)
  | be (off : Int)
  | blt (off : Int)
  | bge (off : Int)
  | bwl (off : Int)
  | ret
  | jmp (ra : Reg) (imm5 : Nat)
  -- Stack Operations
  | push (ra : Reg)
  | pushLr
  | pop (ra : Reg)
  | popLr
  deriving DecidableEq, Repr

end Sys2Proof
end

