-- ==== Sys2Proof/Machine/State.lean ====
section
/-! DEFINITION. The architectural state (10_state.md), the ways a step can stop (R211), and reset. -/

namespace Sys2Proof.Machine

/-- One thing for each general register (R20). -/
structure Bank (α : Type) where
  r0 : α
  r1 : α
  r2 : α
  r3 : α
  r4 : α
  r5 : α
  r6 : α
  r7 : α
  deriving DecidableEq, Repr

/-- The name of a status flag (R29). -/
inductive Flag where
  /-- carry -/
  | c
  /-- overflow -/
  | v
  /-- negative -/
  | n
  /-- zero -/
  | z
  deriving DecidableEq, Repr

/-- One bit for each status flag (R29). -/
structure Flags where
  c : Bool
  v : Bool
  n : Bool
  z : Bool
  deriving DecidableEq, Repr

/-- "Has been written", for each byte of a register (R23). -/
structure ByteMarks where
  upper : Bool
  lower : Bool
  deriving DecidableEq, Repr

/-- "Has been written", for everything but memory that is unspecified at reset (R23, R36). For a
memory word the mark is its being listed. -/
structure Marks where
  regs  : Bank ByteMarks
  lr    : Bool
  flags : Flags
  deriving DecidableEq, Repr

/-- Memory: the words that the launch or an instruction has written, by word address (R32, R50),
addresses strictly rising. An unlisted word is unwritten: it reads as no value (R35, R36). -/
abbrev Memory := List (Nat × Word)

/-- The machine. -/
structure State where
  /-- The implementation parameters of R7; no instruction changes them (log 3). -/
  cfg     : Config
  /-- `R0` to `R7` (R20). -/
  regs    : Bank Word
  /-- The address of the instruction being executed (R25); below 2^`PC_WIDTH`. -/
  pc      : Word
  /-- The link register (R28); below 2^`PC_WIDTH`. -/
  lr      : Word
  /-- `c`, `v`, `n`, `z` (R29). -/
  flags   : Flags
  /-- What has been written since the launch (R23, R36). -/
  written : Marks
  /-- Program text, as the launch supplied it; no instruction writes it (R32). When memory is
  unified: what the launch placed in the one array. -/
  imem    : Memory
  /-- Data memory; when memory is unified, the one array (R32). -/
  mem     : Memory
  /-- The model's own counter of fetches whose word the spec leaves open (R63; log 9). -/
  draws   : Nat
  deriving DecidableEq, Repr

/-- What a read found unwritten (R36). -/
inductive Source where
  | reg (r : Reg)
  | lr
  | flag (f : Flag)
  | memWord (addr : Word)
  /-- An installed instruction word that nothing supplied (log 10). -/
  | text (addr : Word)
  deriving DecidableEq, Repr

/-- Which kind of access found no installed memory (R211). -/
inductive Access where
  | fetch
  | data
  deriving DecidableEq, Repr

/-- The model-level faults (R211). None is a state of the hardware: a fault says the spec cannot
tell what the hardware does next (R210), so every one of them is safe. -/
inductive Fault where
  /-- Decode: the fetched word has an unassigned opcode (R97). Safe. -/
  | illegalInstruction (word : Word) (pc : Word)
  /-- Any instruction that reads state nothing has written, when `UNWRITTEN_READ = fault` (R36);
  and, under it too, a fetch of an installed word nothing supplied (log 10). Safe. -/
  | unwrittenRead (what : Source)
  /-- Fetch, LDW, STW, PUSH, POP: the address is outside installed memory (R58). Safe. -/
  | memoryOutOfRange (addr : Word) (access : Access)
  deriving DecidableEq, Repr

/-- The refusals (R211). Safe, as a fault is. -/
inductive Refusal where
  /-- exec, for an instruction that has no meaning yet; no arm raises it now. Safe. -/
  | notModelled (mnemonic : String)
  /-- STW, PUSH, PUSH LR: the model keeps `MEM_ORG` open and the address lies in the program's
  range (R63). Safe. -/
  | storeToProgramText (addr : Word)
  /-- Decode, in a machine whose `ignoredBits` is `refuse`: an ignored bit is set (R98). Safe. -/
  | nonCanonicalEncoding (word : Word)
  deriving DecidableEq, Repr

/-- How a step, or an instruction, ends. -/
abbrev Out := Host.Outcome State Fault Refusal

/-- The same thing for every register. -/
def Bank.all {α : Type} (a : α) : Bank α := ⟨a, a, a, a, a, a, a, a⟩

/-- The machine right after reset, before any program is loaded (R35). -/
def State.reset : State :=
  { cfg     := resetConfig
    regs    := .all resetWord
    pc      := resetConfig.resetPc
    lr      := resetWord
    flags   := ⟨resetFlag, resetFlag, resetFlag, resetFlag⟩
    written := ⟨.all ⟨false, false⟩, false, ⟨false, false, false, false⟩⟩
    imem    := []
    mem     := []
    draws   := 0 }

end Sys2Proof.Machine
end

