-- ==== Sys2Proof/Machine/Ops.lean ====
section
/-! DEFINITION. The named operations over registers, flags and memory: every read and write of the
state goes through one of them. A machine without architectural exceptions (R210, R214) has no
exception entry and no return from one; a read or an access the spec gives no meaning stops here
with a model-level fault (R211) and changes nothing. -/

namespace Sys2Proof.Machine

/-! Register bank, flags. -/

def Bank.get {α : Type} (b : Bank α) : Reg → α
  | .r0 => b.r0 | .r1 => b.r1 | .r2 => b.r2 | .r3 => b.r3
  | .r4 => b.r4 | .r5 => b.r5 | .r6 => b.r6 | .r7 => b.r7

def Bank.set {α : Type} (b : Bank α) (r : Reg) (a : α) : Bank α :=
  match r with
  | .r0 => { b with r0 := a } | .r1 => { b with r1 := a }
  | .r2 => { b with r2 := a } | .r3 => { b with r3 := a }
  | .r4 => { b with r4 := a } | .r5 => { b with r5 := a }
  | .r6 => { b with r6 := a } | .r7 => { b with r7 := a }

def Flags.get (f : Flags) : Flag → Bool
  | .c => f.c | .v => f.v | .n => f.n | .z => f.z

def Flags.set (f : Flags) (k : Flag) (b : Bool) : Flags :=
  match k with
  | .c => { f with c := b } | .v => { f with v := b }
  | .n => { f with n := b } | .z => { f with z := b }

/-- Both bytes have been written (R23: a read of the register needs both marks). -/
def ByteMarks.whole (m : ByteMarks) : Bool := m.upper && m.lower

/-! Memory: a list in canonical form. -/

/-- The word listed at an address, none where nothing has been written. -/
def Memory.lookup (m : Memory) (a : Nat) : Option Word :=
  match m with
  | [] => none
  | (b, w) :: rest => if a = b then some w else Memory.lookup rest a

/-- Replaces the word at an address (R52), keeping the addresses strictly rising. -/
def Memory.write (m : Memory) (a : Nat) (w : Word) : Memory :=
  match m with
  | [] => [(a, w)]
  | (b, u) :: rest =>
    if a < b then (a, w) :: (b, u) :: rest
    else if a = b then (a, w) :: rest
    else (b, u) :: Memory.write rest a w

/-- Every address listed is at least `lo`, and they rise strictly. -/
def Memory.risesFrom (lo : Nat) (m : Memory) : Bool :=
  match m with
  | [] => true
  | (b, _) :: rest => decide (lo ≤ b) && Memory.risesFrom (b + 1) rest

/-- The canonical form: addresses strictly rising. An unlisted address reads as no value, so no
listed word can equal it. -/
def Memory.wf (m : Memory) : Bool := m.risesFrom 0

/-- Every address listed is below `limit`. -/
def Memory.below (limit : Nat) (m : Memory) : Bool :=
  match m with
  | [] => true
  | (b, _) :: rest => decide (b < limit) && Memory.below limit rest

/-- The words `ws` written at `base`, `base + 1` and so on. -/
def Memory.load (m : Memory) (base : Nat) (ws : List Word) : Memory :=
  match ws with
  | [] => m
  | w :: rest => Memory.load (m.write base w) (base + 1) rest

/-- A list of (address, word) pairs written one after another. -/
def Memory.loadCells (m : Memory) (cells : List (Nat × Word)) : Memory :=
  match cells with
  | [] => m
  | (a, w) :: rest => Memory.loadCells (m.write a w) rest

namespace State

/-! Plain views. -/

/-- `x[i]` (R10). -/
def reg (s : State) (r : Reg) : Word := s.regs.get r

/-- The low `PC_WIDTH` bits of a value, which is what PC and LR hold (R25, R26, R28). -/
def truncPc (s : State) (w : Word) : Word := BitVec.ofNat 16 (w.toNat % 2 ^ s.cfg.pcWidth)

/-! Writes. Each also marks what it writes as written (R23, R36). -/

/-- Writes a whole register (R23). -/
def setReg (s : State) (r : Reg) (w : Word) : State :=
  { s with regs := s.regs.set r w
           written := { s.written with regs := s.written.regs.set r ⟨true, true⟩ } }

/-- Writes bits 15:8 of a register, leaving bits 7:0 (R23, R162). -/
def setUpper (s : State) (r : Reg) (b : Byte) : State :=
  { s with regs := s.regs.set r (b ++ (s.regs.get r).extractLsb' 0 8 : BitVec (8 + 8))
           written := { s.written with
             regs := s.written.regs.set r { s.written.regs.get r with upper := true } } }

/-- Writes bits 7:0 of a register, leaving bits 15:8 (R23, R163). -/
def setLower (s : State) (r : Reg) (b : Byte) : State :=
  { s with regs := s.regs.set r ((s.regs.get r).extractLsb' 8 8 ++ b : BitVec (8 + 8))
           written := { s.written with
             regs := s.written.regs.set r { s.written.regs.get r with lower := true } } }

/-- Writes all four flags (R30). -/
def setFlags (s : State) (f : Flags) : State :=
  { s with flags := f, written := { s.written with flags := ⟨true, true, true, true⟩ } }

/-- Writes the zero flag alone (R122). -/
def setZ (s : State) (b : Bool) : State :=
  { s with flags := s.flags.set .z b
           written := { s.written with flags := s.written.flags.set .z true } }

/-- Writes the link register, `PC_WIDTH` bits (R28). -/
def setLr (s : State) (w : Word) : State :=
  { s with lr := s.truncPc w, written := { s.written with lr := true } }

/-- The next instruction is fetched from `t` modulo 2^`PC_WIDTH` (R26). -/
def setPc (s : State) (t : Word) : State := { s with pc := s.truncPc t }

/-- Replaces one word of data memory (R52). -/
def setMem (s : State) (a : Word) (w : Word) : State := { s with mem := s.mem.write a.toNat w }

/-- The sequential advance every instruction but a taken control transfer ends with (R26). -/
def advance (s : State) : State := s.setPc (s.pc + 1#16)

/-! What may be read (R36). -/

/-- A read succeeds if what it reads has been written, or if unwritten reads draw a value. -/
def canRead (s : State) (mark : Bool) : Bool := s.cfg.unwrittenRead == .draw || mark

def canReadReg (s : State) (r : Reg) : Bool := s.canRead (s.written.regs.get r).whole
def canReadLr (s : State) : Bool := s.canRead s.written.lr
def canReadFlag (s : State) (f : Flag) : Bool := s.canRead (s.written.flags.get f)

/-! Where memory may be accessed. -/

/-- How many data words an access can reach: the installed ones (R58), as far as `ADDR_WIDTH` bits
number them (R7, R50). An address of more bits names no word: DESIGN CHOICE (log 31). -/
def dataWords (s : State) : Nat := min s.cfg.memWords (2 ^ s.cfg.addrWidth)

/-- The data word exists (R58). -/
def installed (s : State) (a : Word) : Bool := decide (a.toNat < s.dataWords)

/-- The model keeps `MEM_ORG` open and the program occupies the address (R63). -/
def textClash (s : State) (a : Word) : Bool :=
  s.cfg.memOrg == .unresolved && (s.imem.lookup a.toNat).isSome

/-- The word a data read of `a` returns: the word written there (R60), or, of a word nothing has
written, the free value if unwritten reads draw one and none if they fault (R36). A program address
reads as unwritten while `MEM_ORG` is kept open (R63). -/
def loadValue (s : State) (a : Word) : Option Word :=
  let unwritten :=
    if s.cfg.unwrittenRead = .draw then some (Config.unwrittenWord a.toNat) else none
  if s.textClash a then unwritten
  else match s.mem.lookup a.toNat with
    | some w => some w
    | none => unwritten

end State

/-! Reads that may fault, each handing what it read to the rest of the instruction. -/

/-- Reads a general register. -/
def readReg (s : State) (r : Reg) (k : Word → Out) : Out :=
  if s.canReadReg r then k (s.reg r) else .fault (.unwrittenRead (.reg r))

/-- Reads the link register. -/
def readLr (s : State) (k : Word → Out) : Out :=
  if s.canReadLr then k s.lr else .fault (.unwrittenRead .lr)

/-- Reads a flag. -/
def readFlag (s : State) (f : Flag) (k : Bool → Out) : Out :=
  if s.canReadFlag f then k (s.flags.get f) else .fault (.unwrittenRead (.flag f))

/-- `MemRead(a, 1)` (R52), with the checks of R213 in their order. -/
def memRead (s : State) (a : Word) (k : Word → Out) : Out :=
  if s.installed a then
    match s.loadValue a with
    | some w => k w
    | none => .fault (.unwrittenRead (.memWord a))
  else .fault (.memoryOutOfRange a .data)

/-- `MemWrite(a, 1, w)` (R52), with the checks of R213 in their order. R213 sets no order between
`MemoryOutOfRange` and `StoreToProgramText`: that an address subject to both faults as out of range is a
DESIGN CHOICE (log 35). -/
def memWrite (s : State) (a : Word) (w : Word) (k : State → Out) : Out :=
  if s.installed a then
    if s.textClash a then .refused (.storeToProgramText a) else k (s.setMem a w)
  else .fault (.memoryOutOfRange a .data)

/-- The instruction is done and the next one in sequence follows (R26). -/
def retire (s : State) : Out := .next s.advance

/-! Launch (R230). -/

/-- The machine as the host launches it: its parameters, a program text with the address of its
first word, and the data words the host defines; nothing else is specified (R230, R35). Where the data
overlap the text in a unified memory, the text is what the array holds: DESIGN CHOICE (log 33). -/
def State.launch (cfg : Config) (base : Nat) (text : List Word) (data : List (Nat × Word)) : State :=
  let dataImage := Memory.loadCells [] data
  let image := match cfg.memOrg with
    | .unified => dataImage.load base text
    | .separate | .unresolved => Memory.load [] base text
  { State.reset with
    cfg := cfg
    pc := cfg.resetPc
    imem := image
    mem := match cfg.memOrg with
      | .unified => image
      | .separate | .unresolved => dataImage }

end Sys2Proof.Machine
end

