-- ==== Sys2Proof/Machine/Flags.lean ====
section
/-! DEFINITION. The flag functions of 40_data_manipulation.md (R120 to R122). -/

namespace Sys2Proof.Machine

/-- A 16-bit result with the four flags an arithmetic instruction writes. -/
structure AluResult where
  value : Word
  flags : Flags
  deriving DecidableEq, Repr

/-- `AddFlags(a, b, cin)` (R120). -/
def addFlags (a b : Word) (cin : Bool) : AluResult :=
  let sum := a.toNat + b.toNat + cin.toNat
  let r := BitVec.ofNat 16 sum
  { value := r
    flags := { c := decide (65536 ≤ sum)
               v := a.msb == b.msb && r.msb != a.msb
               n := r.msb
               z := r == 0#16 } }

/-- What `c` receives from a subtraction's carry out (R121). -/
def carryFlag (p : SubCarry) (carry : Bool) : Bool :=
  match p with
  | .notBorrow => carry
  | .borrow => !carry

/-- The carry in that SUC and SUCI take from `c` (R131, R132). -/
def carryIn (p : SubCarry) (c : Bool) : Bool :=
  match p with
  | .notBorrow => c
  | .borrow => !c

/-- `SubFlags(a, b, cin)`: the addition `a + ~b + cin` (R121). -/
def subFlags (p : SubCarry) (a b : Word) (cin : Bool) : AluResult :=
  let sum := a.toNat + (65535 - b.toNat) + cin.toNat
  let r := BitVec.ofNat 16 sum
  { value := r
    flags := { c := carryFlag p (decide (65536 ≤ sum))
               v := a.msb != b.msb && r.msb != a.msb
               n := r.msb
               z := r == 0#16 } }

/-- Writes an arithmetic result and its four flags. -/
def State.setResult (s : State) (rd : Reg) (r : AluResult) : State :=
  (s.setReg rd r.value).setFlags r.flags

/-- Writes a logic result and the zero flag; `c`, `v` and `n` keep their values (R122). -/
def State.setLogic (s : State) (rd : Reg) (r : Word) : State :=
  (s.setReg rd r).setZ (r == 0#16)

end Sys2Proof.Machine
end

