-- ==== Sys2Proof/Machine/Operands.lean ====
section
/-! DEFINITION. Operand forms: widened immediates, effective addresses, branch targets. -/

namespace Sys2Proof.Machine

/-- `ext_P` of a 5-bit field (R10, R89, R90). -/
def extImm5 (e : Extension) (imm5 : Nat) : Word :=
  match e with
  | .zero => (BitVec.ofNat 5 imm5).setWidth 16
  | .sign => (BitVec.ofNat 5 imm5).signExtend 16

/-- `zext_16(imm8)`, the operand of ADDIB and SUBIB (R91). -/
def zextImm8 (imm8 : Nat) : Word := (BitVec.ofNat 8 imm8).setWidth 16

/-- The operand of ADDI, ADCI, SUBI, SUCI and CMPI (R89). -/
def State.aluImm (s : State) (imm5 : Nat) : Word := extImm5 s.cfg.imm5Alu imm5

/-- `ea = (x[Ra] + ext(imm5)) mod 65536`, from the base register's value (R57, R172). -/
def State.dataAddress (s : State) (base : Word) (imm5 : Nat) : Word :=
  base + extImm5 s.cfg.imm5Mem imm5

/-- The address a PUSH writes, from the stack pointer's value (R201). -/
def State.pushAddress (s : State) (sp : Word) : Word :=
  match s.cfg.stackOrder with
  | .table => sp
  | .prose => sp - 1#16

/-- The address a POP reads, from the stack pointer's value (R203). -/
def State.popAddress (s : State) (sp : Word) : Word :=
  match s.cfg.stackOrder with
  | .table => sp + 1#16
  | .prose => sp

/-- Target of a relative branch: counted from the branch's own address (R180), before the reduction
modulo 2^`PC_WIDTH` that `setPc` makes. -/
def State.branchTarget (s : State) (off : Int) : Word := s.pc + BitVec.ofInt 16 off

/-- Target of JMP, absolute, from the register's value (R188). -/
def State.jumpTarget (s : State) (base : Word) (imm5 : Nat) : Word :=
  base + extImm5 s.cfg.imm5Jmp imm5

end Sys2Proof.Machine
end

