-- ==== Sys2Proof/Machine/Arithmetic.lean ====
section
/-! DEFINITION. Addition, subtraction, negation and comparison (R124 to R134, R160, R161). Sources
are read, in the order of the rule's pseudocode (R213), before the destination is written (R10). -/

namespace Sys2Proof.Machine

/-- ADD (R124). -/
def execAdd (rd ra rb : Reg) (s : State) : Out :=
  readReg s ra fun a => readReg s rb fun b =>
  retire (s.setResult rd (addFlags a b false))

/-- ADDI (R125). -/
def execAddi (rd ra : Reg) (imm5 : Nat) (s : State) : Out :=
  readReg s ra fun a =>
  retire (s.setResult rd (addFlags a (s.aluImm imm5) false))

/-- ADDIB (R160). -/
def execAddib (rd : Reg) (imm8 : Nat) (s : State) : Out :=
  readReg s rd fun a =>
  retire (s.setResult rd (addFlags a (zextImm8 imm8) false))

/-- ADC (R126). -/
def execAdc (rd ra rb : Reg) (s : State) : Out :=
  readReg s ra fun a => readReg s rb fun b => readFlag s .c fun c =>
  retire (s.setResult rd (addFlags a b c))

/-- ADCI (R127). -/
def execAdci (rd ra : Reg) (imm5 : Nat) (s : State) : Out :=
  readReg s ra fun a => readFlag s .c fun c =>
  retire (s.setResult rd (addFlags a (s.aluImm imm5) c))

/-- NEG (R128). -/
def execNeg (rd ra : Reg) (s : State) : Out :=
  readReg s ra fun a =>
  retire (s.setResult rd (subFlags s.cfg.subCarry 0#16 a true))

/-- SUB (R129). -/
def execSub (rd ra rb : Reg) (s : State) : Out :=
  readReg s ra fun a => readReg s rb fun b =>
  retire (s.setResult rd (subFlags s.cfg.subCarry a b true))

/-- SUBI (R130). -/
def execSubi (rd ra : Reg) (imm5 : Nat) (s : State) : Out :=
  readReg s ra fun a =>
  retire (s.setResult rd (subFlags s.cfg.subCarry a (s.aluImm imm5) true))

/-- SUBIB (R161). -/
def execSubib (rd : Reg) (imm8 : Nat) (s : State) : Out :=
  readReg s rd fun a =>
  retire (s.setResult rd (subFlags s.cfg.subCarry a (zextImm8 imm8) true))

/-- SUC (R131): its pseudocode reads `c` first. -/
def execSuc (rd ra rb : Reg) (s : State) : Out :=
  readFlag s .c fun c => readReg s ra fun a => readReg s rb fun b =>
  retire (s.setResult rd (subFlags s.cfg.subCarry a b (carryIn s.cfg.subCarry c)))

/-- SUCI (R132): its pseudocode reads `c` first. -/
def execSuci (rd ra : Reg) (imm5 : Nat) (s : State) : Out :=
  readFlag s .c fun c => readReg s ra fun a =>
  retire (s.setResult rd
    (subFlags s.cfg.subCarry a (s.aluImm imm5) (carryIn s.cfg.subCarry c)))

/-- CMP (R133): the flags of the subtraction, the result discarded. -/
def execCmp (ra rb : Reg) (s : State) : Out :=
  readReg s ra fun a => readReg s rb fun b =>
  retire (s.setFlags (subFlags s.cfg.subCarry a b true).flags)

/-- CMPI (R134). -/
def execCmpi (ra : Reg) (imm5 : Nat) (s : State) : Out :=
  readReg s ra fun a =>
  retire (s.setFlags (subFlags s.cfg.subCarry a (s.aluImm imm5) true).flags)

end Sys2Proof.Machine
end

