-- ==== Sys2Proof/Machine/Control.lean ====
section
/-! DEFINITION. Control transfers (R180 to R190). None writes a flag or a general register; there is
no delay slot (R190). -/

namespace Sys2Proof.Machine

/-- Branches if the condition holds, else the next instruction in sequence follows (R180). -/
def branchIf (taken : Bool) (off : Int) (s : State) : Out :=
  if taken then .next (s.setPc (s.branchTarget off)) else retire s

/-- BR (R181). -/
def execBr (off : Int) (s : State) : Out := branchIf true off s

/-- BNE (R182). -/
def execBne (off : Int) (s : State) : Out := readFlag s .z fun z => branchIf (!z) off s

/-- BE (R183). -/
def execBe (off : Int) (s : State) : Out := readFlag s .z fun z => branchIf z off s

/-- BLT (R184): taken when `n` and `v` differ. -/
def execBlt (off : Int) (s : State) : Out :=
  readFlag s .n fun n => readFlag s .v fun v => branchIf (n != v) off s

/-- BGE (R185): taken when `n` and `v` are equal. -/
def execBge (off : Int) (s : State) : Out :=
  readFlag s .n fun n => readFlag s .v fun v => branchIf (n == v) off s

/-- BWL (R186): both right-hand sides use the address of the BWL itself. -/
def execBwl (off : Int) (s : State) : Out :=
  .next ((s.setLr (s.pc + 1#16)).setPc (s.branchTarget off))

/-- RET (R187). -/
def execRet (s : State) : Out := readLr s fun t => .next (s.setPc t)

/-- JMP (R188): absolute, LR not written. -/
def execJmp (ra : Reg) (imm5 : Nat) (s : State) : Out :=
  readReg s ra fun a => .next (s.setPc (s.jumpTarget a imm5))

end Sys2Proof.Machine
end

