-- ==== Sys2Proof/Machine/Logic.lean ====
section
/-! DEFINITION. The six logic instructions, bit by bit on 16 bits, writing `z` alone (R122, R135 to
R140), and the three shifts, which write no flag (R141, R143 to R145). -/

namespace Sys2Proof.Machine

/-- AND (R135). -/
def execAnd (rd ra rb : Reg) (s : State) : Out :=
  readReg s ra fun a => readReg s rb fun b => retire (s.setLogic rd (a &&& b))

/-- OR (R136). -/
def execOr (rd ra rb : Reg) (s : State) : Out :=
  readReg s ra fun a => readReg s rb fun b => retire (s.setLogic rd (a ||| b))

/-- XOR (R137). -/
def execXor (rd ra rb : Reg) (s : State) : Out :=
  readReg s ra fun a => readReg s rb fun b => retire (s.setLogic rd (a ^^^ b))

/-- NOT (R138). -/
def execNot (rd ra : Reg) (s : State) : Out :=
  readReg s ra fun a => retire (s.setLogic rd (~~~a))

/-- NAND (R139). -/
def execNand (rd ra rb : Reg) (s : State) : Out :=
  readReg s ra fun a => readReg s rb fun b => retire (s.setLogic rd (~~~(a &&& b)))

/-- NOR (R140). -/
def execNor (rd ra rb : Reg) (s : State) : Out :=
  readReg s ra fun a => readReg s rb fun b => retire (s.setLogic rd (~~~(a ||| b)))

/-- LSL (R143): zeros enter at bit 0. -/
def execLsl (rd ra : Reg) (imm4 : Nat) (s : State) : Out :=
  readReg s ra fun a => retire (s.setReg rd (a <<< imm4))

/-- LSR (R144): zeros enter at bit 15. -/
def execLsr (rd ra : Reg) (imm4 : Nat) (s : State) : Out :=
  readReg s ra fun a => retire (s.setReg rd (a >>> imm4))

/-- ASR (R145): copies of bit 15 enter at bit 15. -/
def execAsr (rd ra : Reg) (imm4 : Nat) (s : State) : Out :=
  readReg s ra fun a => retire (s.setReg rd (a.sshiftRight imm4))

end Sys2Proof.Machine
end

