-- ==== Sys2Proof/Machine/Transfer.lean ====
section
/-! DEFINITION. Byte loads (R162, R163), loads and stores (R170 to R172), and the stack operations
(R200 to R205). -/

namespace Sys2Proof.Machine

/-- LUI (R162): bits 7:0 of Rd are neither read nor changed. -/
def execLui (rd : Reg) (imm8 : Nat) (s : State) : Out :=
  retire (s.setUpper rd (BitVec.ofNat 8 imm8))

/-- LLI (R163): bits 15:8 of Rd are neither read nor changed. -/
def execLli (rd : Reg) (imm8 : Nat) (s : State) : Out :=
  retire (s.setLower rd (BitVec.ofNat 8 imm8))

/-- LDW (R170). -/
def execLdw (rd ra : Reg) (imm5 : Nat) (s : State) : Out :=
  readReg s ra fun a => memRead s (s.dataAddress a imm5) fun w => retire (s.setReg rd w)

/-- STW (R171): the Rd field names the register stored. -/
def execStw (rd ra : Reg) (imm5 : Nat) (s : State) : Out :=
  readReg s ra fun a => readReg s rd fun d => memWrite s (s.dataAddress a imm5) d retire

/-- PUSH Ra (R201): the value stored is the one Ra had before, also when Ra is R7 (R205). -/
def execPush (ra : Reg) (s : State) : Out :=
  readReg s .r7 fun sp => readReg s ra fun d =>
  memWrite s (s.pushAddress sp) d fun s' => retire (s'.setReg .r7 (sp - 1#16))

/-- PUSH LR (R202). -/
def execPushLr (s : State) : Out :=
  readReg s .r7 fun sp => readLr s fun d =>
  memWrite s (s.pushAddress sp) d fun s' => retire (s'.setReg .r7 (sp - 1#16))

/-- POP Ra (R203): the write of Ra comes after the write of R7 (R205). -/
def execPop (ra : Reg) (s : State) : Out :=
  readReg s .r7 fun sp => memRead s (s.popAddress sp) fun w =>
  retire ((s.setReg .r7 (sp + 1#16)).setReg ra w)

/-- POP LR (R204). -/
def execPopLr (s : State) : Out :=
  readReg s .r7 fun sp => memRead s (s.popAddress sp) fun w =>
  retire ((s.setReg .r7 (sp + 1#16)).setLr w)

end Sys2Proof.Machine
end

