-- ==== Sys2Proof/WellFormed.lean ====
section
/-! DEFINITION. The ranges an instruction's operands must lie in to be encoded (R88 to R92, R102). -/

namespace Sys2Proof

/-- imm4, imm5 and imm8 are unsigned fields of that many bits (R88 to R91). -/
def fitsField (bits imm : Nat) : Bool := decide (imm < 2 ^ bits)

/-- A relative branch reaches 128 instructions back and 127 forward (R92, R180). -/
def fitsOffset (off : Int) : Bool := decide (-128 ≤ off ∧ off ≤ 127)

/-- Every operand is one its field can hold. -/
def Instr.wf : Instr → Bool
  | .addi _ _ k | .adci _ _ k | .subi _ _ k | .suci _ _ k | .cmpi _ k
  | .ldw _ _ k | .stw _ _ k | .jmp _ k => fitsField 5 k
  | .lsl _ _ k | .lsr _ _ k | .asr _ _ k => fitsField 4 k
  | .addib _ k | .subib _ k | .lui _ k | .lli _ k => fitsField 8 k
  | .br off | .bne off | .be off | .blt off | .bge off | .bwl off => fitsOffset off
  | .add _ _ _ | .adc _ _ _ | .neg _ _ | .sub _ _ _ | .suc _ _ _ | .cmp _ _
  | .and _ _ _ | .or _ _ _ | .xor _ _ _ | .not _ _ | .nand _ _ _ | .nor _ _ _
  | .ret | .push _ | .pushLr | .pop _ | .popLr => true

end Sys2Proof
end

