-- ==== Sys2Proof/Decode.lean ====
section
/-! DEFINITION. Decoding of all 65536 words (R94 to R98), and the encoder (R81 to R87). -/

namespace Sys2Proof

/-- `w[hi:lo]`: the unsigned number formed by bits `hi` down to `lo` (R8). -/
def bits (w : Word) (hi lo : Nat) : Nat := w.toNat / 2 ^ lo % 2 ^ (hi + 1 - lo)

/-- The number of a register, as a 3-bit field holds it (R93). -/
def Reg.num : Reg → Nat
  | .r0 => 0 | .r1 => 1 | .r2 => 2 | .r3 => 3 | .r4 => 4 | .r5 => 5 | .r6 => 6 | .r7 => 7

/-- A 3-bit register field with value `k` names `Rk` (R93). -/
def Reg.ofNum : Nat → Reg
  | 0 => .r0 | 1 => .r1 | 2 => .r2 | 3 => .r3 | 4 => .r4 | 5 => .r5 | 6 => .r6 | _ => .r7

/-- Instruction bits 10:8 (R93). -/
def fieldRd (w : Word) : Reg := .ofNum (bits w 10 8)
/-- Instruction bits 7:5 (R93). -/
def fieldRa (w : Word) : Reg := .ofNum (bits w 7 5)
/-- Instruction bits 4:2 (R93). -/
def fieldRb (w : Word) : Reg := .ofNum (bits w 4 2)
/-- Instruction bits 3:0; bit 4 is ignored (R88). -/
def fieldImm4 (w : Word) : Nat := bits w 3 0
/-- Instruction bits 4:0 (R89, R90). -/
def fieldImm5 (w : Word) : Nat := bits w 4 0
/-- Instruction bits 7:0 (R91). -/
def fieldImm8 (w : Word) : Nat := bits w 7 0

/-- An 8-bit field read as a two's-complement number, -128 to +127 (R92). -/
def signed8 (k : Nat) : Int := if k < 128 then (k : Int) else (k : Int) - 256

/-- imm8 of a relative branch (R92). -/
def fieldOffset (w : Word) : Int := signed8 (fieldImm8 w)

/-- Why a word is no instruction. -/
inductive DecodeError where
  /-- Opcodes 11000, 11001 and 11011 are assigned to no instruction (R97). -/
  | unassignedOpcode (word : Word)
  deriving DecidableEq, Repr

/-- The control transfer selected by Cond, bits 10:8, under opcode 11110 (R96). -/
def decodeControl (w : Word) : Instr :=
  match bits w 10 8 with
  | 0 => .br (fieldOffset w)
  | 1 => .jmp (fieldRa w) (fieldImm5 w)
  | 2 => .ret
  | 3 => .bwl (fieldOffset w)
  | 4 => .blt (fieldOffset w)
  | 5 => .bge (fieldOffset w)
  | 6 => .bne (fieldOffset w)
  | _ => .be (fieldOffset w)

/-- The decode procedure (R94) over the opcode map (R95), total on all words. -/
def decode (w : Word) : Except DecodeError Instr :=
  match bits w 15 11 with
  | 0b00000 => .ok (.ldw (fieldRd w) (fieldRa w) (fieldImm5 w))
  | 0b00001 => .ok (if bits w 10 10 = 1 then .popLr else .pop (fieldRa w))
  | 0b00010 => .ok (.add (fieldRd w) (fieldRa w) (fieldRb w))
  | 0b00011 => .ok (.addib (fieldRd w) (fieldImm8 w))
  | 0b00100 => .ok (.adc (fieldRd w) (fieldRa w) (fieldRb w))
  | 0b00101 => .ok (.adci (fieldRd w) (fieldRa w) (fieldImm5 w))
  | 0b00110 => .ok (.addi (fieldRd w) (fieldRa w) (fieldImm5 w))
  | 0b00111 => .ok (.cmp (fieldRa w) (fieldRb w))
  | 0b01000 => .ok (.stw (fieldRd w) (fieldRa w) (fieldImm5 w))
  | 0b01001 => .ok (if bits w 10 10 = 1 then .pushLr else .push (fieldRa w))
  | 0b01010 => .ok (.sub (fieldRd w) (fieldRa w) (fieldRb w))
  | 0b01011 => .ok (.subib (fieldRd w) (fieldImm8 w))
  | 0b01100 => .ok (.suc (fieldRd w) (fieldRa w) (fieldRb w))
  | 0b01101 => .ok (.suci (fieldRd w) (fieldRa w) (fieldImm5 w))
  | 0b01110 => .ok (.subi (fieldRd w) (fieldRa w) (fieldImm5 w))
  | 0b01111 => .ok (.cmpi (fieldRa w) (fieldImm5 w))
  | 0b10000 => .ok (.and (fieldRd w) (fieldRa w) (fieldRb w))
  | 0b10001 => .ok (.or (fieldRd w) (fieldRa w) (fieldRb w))
  | 0b10010 => .ok (.not (fieldRd w) (fieldRa w))
  | 0b10011 => .ok (.xor (fieldRd w) (fieldRa w) (fieldRb w))
  | 0b10100 => .ok (.lui (fieldRd w) (fieldImm8 w))
  | 0b10101 => .ok (.lli (fieldRd w) (fieldImm8 w))
  | 0b10110 => .ok (.nand (fieldRd w) (fieldRa w) (fieldRb w))
  | 0b10111 => .ok (.nor (fieldRd w) (fieldRa w) (fieldRb w))
  | 0b11010 => .ok (.neg (fieldRd w) (fieldRa w))
  | 0b11100 => .ok (.asr (fieldRd w) (fieldRa w) (fieldImm4 w))
  | 0b11101 => .ok (.lsr (fieldRd w) (fieldRa w) (fieldImm4 w))
  | 0b11110 => .ok (decodeControl w)
  | 0b11111 => .ok (.lsl (fieldRd w) (fieldRa w) (fieldImm4 w))
  | _ => .error (.unassignedOpcode w)

/-- The bits decode ignores for an instruction (R98's table), as a mask. -/
def ignoredMask : Instr → Word
  | .add _ _ _ | .adc _ _ _ | .sub _ _ _ | .suc _ _ _
  | .and _ _ _ | .or _ _ _ | .xor _ _ _ | .nand _ _ _ | .nor _ _ _ => 0x0003#16
  | .neg _ _ | .not _ _ => 0x001F#16
  | .cmp _ _ => 0x0703#16
  | .cmpi _ _ => 0x0700#16
  | .lsl _ _ _ | .lsr _ _ _ | .asr _ _ _ => 0x0010#16
  | .ret => 0x00FF#16
  | .push _ | .pop _ => 0x031F#16
  | .pushLr | .popLr => 0x03FF#16
  | .addi _ _ _ | .addib _ _ | .adci _ _ _ | .subi _ _ _ | .subib _ _ | .suci _ _ _
  | .ldw _ _ _ | .stw _ _ _ | .lui _ _ | .lli _ _ | .br _ | .bne _ | .be _ | .blt _
  | .bge _ | .bwl _ | .jmp _ _ => 0x0000#16

/-- No ignored bit of the word is set for the instruction it decodes to (R98). -/
def canonical (w : Word) (i : Instr) : Bool := w &&& ignoredMask i == 0#16

/-! The encoder: the word an assembler emits, ignored bits 0 (R98). -/

/-- Format A1 (R81). -/
def wordA1 (op : Nat) (rd ra rb : Nat) : Word :=
  BitVec.ofNat 16 (op * 2048 + rd * 256 + ra * 32 + rb * 4)
/-- Formats A2 and C: a 5-bit field in bits 4:0 (R82, R84). -/
def wordA2 (op : Nat) (rd ra imm : Nat) : Word :=
  BitVec.ofNat 16 (op * 2048 + rd * 256 + ra * 32 + imm)
/-- Formats B and D1: an 8-bit field in bits 7:0 (R83, R85). -/
def wordB (op : Nat) (rd imm : Nat) : Word := BitVec.ofNat 16 (op * 2048 + rd * 256 + imm)
/-- Format E: bits 15:11, L in bit 10, Ra in bits 7:5 (R87). -/
def wordE (op l ra : Nat) : Word := BitVec.ofNat 16 (op * 2048 + l * 1024 + ra * 32)
/-- The two's-complement byte of a branch offset (R92). -/
def offsetByte (off : Int) : Nat := (off % 256).toNat

/-- The word of an instruction (R81 to R87 with the opcodes of R95 and the Cond values of R96). -/
def encode : Instr → Word
  | .add rd ra rb  => wordA1 0b00010 rd.num ra.num rb.num
  | .addi rd ra k  => wordA2 0b00110 rd.num ra.num k
  | .addib rd k    => wordB 0b00011 rd.num k
  | .adc rd ra rb  => wordA1 0b00100 rd.num ra.num rb.num
  | .adci rd ra k  => wordA2 0b00101 rd.num ra.num k
  | .neg rd ra     => wordA1 0b11010 rd.num ra.num 0
  | .sub rd ra rb  => wordA1 0b01010 rd.num ra.num rb.num
  | .subi rd ra k  => wordA2 0b01110 rd.num ra.num k
  | .subib rd k    => wordB 0b01011 rd.num k
  | .suc rd ra rb  => wordA1 0b01100 rd.num ra.num rb.num
  | .suci rd ra k  => wordA2 0b01101 rd.num ra.num k
  | .cmp ra rb     => wordA1 0b00111 0 ra.num rb.num
  | .cmpi ra k     => wordA2 0b01111 0 ra.num k
  | .and rd ra rb  => wordA1 0b10000 rd.num ra.num rb.num
  | .or rd ra rb   => wordA1 0b10001 rd.num ra.num rb.num
  | .xor rd ra rb  => wordA1 0b10011 rd.num ra.num rb.num
  | .not rd ra     => wordA1 0b10010 rd.num ra.num 0
  | .nand rd ra rb => wordA1 0b10110 rd.num ra.num rb.num
  | .nor rd ra rb  => wordA1 0b10111 rd.num ra.num rb.num
  | .lsl rd ra k   => wordA2 0b11111 rd.num ra.num k
  | .lsr rd ra k   => wordA2 0b11101 rd.num ra.num k
  | .asr rd ra k   => wordA2 0b11100 rd.num ra.num k
  | .ldw rd ra k   => wordA2 0b00000 rd.num ra.num k
  | .stw rd ra k   => wordA2 0b01000 rd.num ra.num k
  | .lui rd k      => wordB 0b10100 rd.num k
  | .lli rd k      => wordB 0b10101 rd.num k
  | .br off        => wordB 0b11110 0b000 (offsetByte off)
  | .bne off       => wordB 0b11110 0b110 (offsetByte off)
  | .be off        => wordB 0b11110 0b111 (offsetByte off)
  | .blt off       => wordB 0b11110 0b100 (offsetByte off)
  | .bge off       => wordB 0b11110 0b101 (offsetByte off)
  | .bwl off       => wordB 0b11110 0b011 (offsetByte off)
  | .ret           => wordB 0b11110 0b010 0
  | .jmp ra k      => wordA2 0b11110 0b001 ra.num k
  | .push ra       => wordE 0b01001 0 ra.num
  | .pushLr        => wordE 0b01001 1 0
  | .pop ra        => wordE 0b00001 0 ra.num
  | .popLr         => wordE 0b00001 1 0

/-- The instruction word whose low `nbits` bits are those of `w`, every bit above them 0: an
instruction is one 16-bit word (R80), numbered as spec/opcode_table.json numbers it. -/
def tableWord (nbits w : Nat) : Word := BitVec.ofNat 16 (w % 2 ^ nbits)

/-- What the decoder reads from a row of the opcode table. -/
def decodeTableWord (nbits w : Nat) : Option Instr :=
  match decode (tableWord nbits w) with
  | .ok i => some i
  | .error _ => none

end Sys2Proof
end

