-- ==== Sys2Proof/Machine/Fetch.lean ====
section
/-! DEFINITION. Fetching and decoding the next instruction (R51, R58, R63, R94, R97, R98, R213). -/

namespace Sys2Proof.Machine

namespace State

/-- How many instruction words are installed; one number with the data words when memory is
unified (R58). That `imemWords` alone bounds a fetch while `MEM_ORG` is kept open is a DESIGN CHOICE
(log 34). -/
def fetchWords (s : State) : Nat :=
  match s.cfg.memOrg with
  | .unified => s.cfg.memWords
  | .separate | .unresolved => s.cfg.imemWords

/-- The spec does not settle this fetch: memory is unified and the word at PC is no longer what the
launch placed there, so a store has been made to it (R63). -/
def fetchDraws (s : State) : Bool :=
  s.cfg.memOrg == .unified && s.mem.lookup s.pc.toNat != s.imem.lookup s.pc.toNat

/-- The instruction word at PC that the launch or a store supplied, none where nothing did. Where the
spec does not settle whether a store is seen, the free value decides (log 9). -/
def suppliedWord (s : State) : Option Word :=
  match s.cfg.memOrg with
  | .separate | .unresolved => s.imem.lookup s.pc.toNat
  | .unified =>
    if s.fetchDraws && !Config.fetchSeesStore s.draws then s.imem.lookup s.pc.toNat
    else s.mem.lookup s.pc.toNat

/-- What a fetch reads where nothing supplied the word at PC: nothing if unwritten reads fault, a free
value if they draw (R36; log 10). A unified memory has one word there, so an LDW draws the same. While
`MEM_ORG` is kept open, data memory at that address may be what the fetch reads. -/
def unwrittenFetch (s : State) : Option Word :=
  match s.cfg.unwrittenRead with
  | .fault => none
  | .draw => some <| match s.cfg.memOrg with
    | .unified => Config.unwrittenWord s.pc.toNat
    | .separate => Config.unwrittenText s.pc.toNat none
    | .unresolved => Config.unwrittenText s.pc.toNat (s.mem.lookup s.pc.toNat)

/-- `Fetch(pc)` (R51): the instruction word at PC, none where the fetch faults (R36). -/
def fetchedWord (s : State) : Option Word :=
  match s.suppliedWord with
  | some w => some w
  | none => s.unwrittenFetch

/-- The state the fetched instruction runs on: a fetch changes nothing, but that one the spec does
not settle is counted. -/
def afterFetch (s : State) : State :=
  if s.fetchDraws then { s with draws := s.draws + 1 } else s

end State

/-- Fetches, decodes and hands the instruction on, with the checks of R213 in their order. -/
def fetchInstr (s : State) (k : Instr → State → Out) : Out :=
  if s.pc.toNat < s.fetchWords then
    match s.fetchedWord with
    | none => .fault (.unwrittenRead (.text s.pc))
    | some w =>
      match decode w with
      | .error (.unassignedOpcode u) => .fault (.illegalInstruction u s.pc)
      | .ok i =>
        if s.cfg.ignoredBits = .refuse ∧ canonical w i = false then
          .refused (.nonCanonicalEncoding w)
        else k i s.afterFetch
  else .fault (.memoryOutOfRange s.pc .fetch)

/-- `s` with the word `w` where the next fetch reads it, and that address installed. -/
def State.placeWord (s : State) (w : Word) : State :=
  let a := s.pc.toNat
  match s.cfg.memOrg with
  | .unified =>
    { s with cfg := { s.cfg with memWords := max s.cfg.memWords (a + 1) }
             imem := s.imem.write a w
             mem := s.mem.write a w }
  | .separate | .unresolved =>
    { s with cfg := { s.cfg with imemWords := max s.cfg.imemWords (a + 1) }
             imem := s.imem.write a w }

end Sys2Proof.Machine
end

