-- ==== Sys2Proof/Machine/Step.lean ====
section
/-! DEFINITION. One step: one instruction (R235), fetched at PC, decoded and executed. -/

namespace Sys2Proof.Machine

/-- One step of the machine. -/
def step (s : State) : Out := fetchInstr s exec

/-- `s` with the instruction of a row of the opcode table stored where `step` fetches next. -/
def State.withFetchWord (s : State) (nbits w : Nat) : State := s.placeWord (tableWord nbits w)

end Sys2Proof.Machine
end

