-- ==== Sys2Proof/Safety.lean ====
section
/-! DEFINITION. The terms claims are stated in: what an instruction reads and writes (R24, R30), what
it leaves alone, the invariant of the machine, and the end of a run (R233). -/

namespace Sys2Proof.Machine

/-- The state an outcome goes on with, if it goes on. -/
def stateOf : Out → Option State
  | .next s => some s
  | .fault _ => none
  | .refused _ => none

/-- The general registers an instruction writes: the write column of R24. -/
def destRegs : Instr → List Reg
  | .add rd _ _ | .adc rd _ _ | .sub rd _ _ | .suc rd _ _
  | .and rd _ _ | .or rd _ _ | .xor rd _ _ | .nand rd _ _ | .nor rd _ _
  | .addi rd _ _ | .adci rd _ _ | .subi rd _ _ | .suci rd _ _
  | .lsl rd _ _ | .lsr rd _ _ | .asr rd _ _ | .neg rd _ | .not rd _
  | .addib rd _ | .subib rd _ | .lui rd _ | .lli rd _ | .ldw rd _ _ => [rd]
  | .push _ | .pushLr | .popLr => [.r7]
  | .pop ra => [.r7, ra]
  | .cmp _ _ | .cmpi _ _ | .stw _ _ _ | .br _ | .bne _ | .be _ | .blt _ | .bge _ | .bwl _
  | .ret | .jmp _ _ => []

/-- The flags an instruction writes: the table of R30. -/
def flagsWritten : Instr → List Flag
  | .add _ _ _ | .addi _ _ _ | .addib _ _ | .adc _ _ _ | .adci _ _ _ | .neg _ _
  | .sub _ _ _ | .subi _ _ _ | .subib _ _ | .suc _ _ _ | .suci _ _ _ | .cmp _ _
  | .cmpi _ _ => [.c, .v, .n, .z]
  | .and _ _ _ | .or _ _ _ | .xor _ _ _ | .not _ _ | .nand _ _ _ | .nor _ _ _ => [.z]
  | .lsl _ _ _ | .lsr _ _ _ | .asr _ _ _ | .ldw _ _ _ | .stw _ _ _ | .lui _ _ | .lli _ _
  | .br _ | .bne _ | .be _ | .blt _ | .bge _ | .bwl _ | .ret | .jmp _ _
  | .push _ | .pushLr | .pop _ | .popLr => []

/-- BWL and POP LR write the link register (R28). -/
def writesLr : Instr → Bool
  | .bwl _ | .popLr => true
  | .add _ _ _ | .addi _ _ _ | .addib _ _ | .adc _ _ _ | .adci _ _ _ | .neg _ _
  | .sub _ _ _ | .subi _ _ _ | .subib _ _ | .suc _ _ _ | .suci _ _ _ | .cmp _ _
  | .cmpi _ _ | .and _ _ _ | .or _ _ _ | .xor _ _ _ | .not _ _ | .nand _ _ _ | .nor _ _ _
  | .lsl _ _ _ | .lsr _ _ _ | .asr _ _ _ | .ldw _ _ _ | .stw _ _ _ | .lui _ _ | .lli _ _
  | .br _ | .bne _ | .be _ | .blt _ | .bge _ | .ret | .jmp _ _
  | .push _ | .pushLr | .pop _ => false

/-- The control transfers: the instructions that may leave PC elsewhere than at the next address
(R26, R27). -/
def isControl : Instr → Bool
  | .br _ | .bne _ | .be _ | .blt _ | .bge _ | .bwl _ | .ret | .jmp _ _ => true
  | .add _ _ _ | .addi _ _ _ | .addib _ _ | .adc _ _ _ | .adci _ _ _ | .neg _ _
  | .sub _ _ _ | .subi _ _ _ | .subib _ _ | .suc _ _ _ | .suci _ _ _ | .cmp _ _
  | .cmpi _ _ | .and _ _ _ | .or _ _ _ | .xor _ _ _ | .not _ _ | .nand _ _ _ | .nor _ _ _
  | .lsl _ _ _ | .lsr _ _ _ | .asr _ _ _ | .ldw _ _ _ | .stw _ _ _ | .lui _ _ | .lli _ _
  | .push _ | .pushLr | .pop _ | .popLr => false

/-- The relative control transfers, which alone read PC (R27). -/
def isRelative : Instr → Bool
  | .br _ | .bne _ | .be _ | .blt _ | .bge _ | .bwl _ => true
  | .add _ _ _ | .addi _ _ _ | .addib _ _ | .adc _ _ _ | .adci _ _ _ | .neg _ _
  | .sub _ _ _ | .subi _ _ _ | .subib _ _ | .suc _ _ _ | .suci _ _ _ | .cmp _ _
  | .cmpi _ _ | .and _ _ _ | .or _ _ _ | .xor _ _ _ | .not _ _ | .nand _ _ _ | .nor _ _ _
  | .lsl _ _ _ | .lsr _ _ _ | .asr _ _ _ | .ldw _ _ _ | .stw _ _ _ | .lui _ _ | .lli _ _
  | .ret | .jmp _ _ | .push _ | .pushLr | .pop _ | .popLr => false

/-- The registers, LR and flags an instruction reads (R24, R30, R36), in the order its pseudocode
reads them (R213). -/
def reads : Instr → List Source
  | .add _ ra rb | .sub _ ra rb | .cmp ra rb
  | .and _ ra rb | .or _ ra rb | .xor _ ra rb | .nand _ ra rb | .nor _ ra rb =>
    [.reg ra, .reg rb]
  | .adc _ ra rb => [.reg ra, .reg rb, .flag .c]
  | .suc _ ra rb => [.flag .c, .reg ra, .reg rb]
  | .adci _ ra _ => [.reg ra, .flag .c]
  | .suci _ ra _ => [.flag .c, .reg ra]
  | .addi _ ra _ | .subi _ ra _ | .cmpi ra _ | .lsl _ ra _ | .lsr _ ra _ | .asr _ ra _
  | .neg _ ra | .not _ ra | .ldw _ ra _ | .jmp ra _ => [.reg ra]
  | .addib rd _ | .subib rd _ => [.reg rd]
  | .stw rd ra _ => [.reg ra, .reg rd]
  | .push ra => [.reg .r7, .reg ra]
  | .pushLr => [.reg .r7, .lr]
  | .pop _ | .popLr => [.reg .r7]
  | .bne _ | .be _ => [.flag .z]
  | .blt _ | .bge _ => [.flag .n, .flag .v]
  | .ret => [.lr]
  | .lui _ _ | .lli _ _ | .br _ | .bwl _ => []

/-- A source may be read (R36). -/
def State.readable (s : State) : Source → Bool
  | .reg r => s.canReadReg r
  | .lr => s.canReadLr
  | .flag f => s.canReadFlag f
  | .memWord a => (s.loadValue a).isSome
  | .text a => s.canRead (s.imem.lookup a.toNat).isSome

/-- The word a store goes to, computed as the meanings compute it. -/
def storeAddress (i : Instr) (s : State) : Option Word :=
  match i with
  | .stw _ ra k => some (s.dataAddress (s.reg ra) k)
  | .push _ | .pushLr => some (s.pushAddress (s.reg .r7))
  | .add _ _ _ | .addi _ _ _ | .addib _ _ | .adc _ _ _ | .adci _ _ _ | .neg _ _
  | .sub _ _ _ | .subi _ _ _ | .subib _ _ | .suc _ _ _ | .suci _ _ _ | .cmp _ _
  | .cmpi _ _ | .and _ _ _ | .or _ _ _ | .xor _ _ _ | .not _ _ | .nand _ _ _ | .nor _ _ _
  | .lsl _ _ _ | .lsr _ _ _ | .asr _ _ _ | .ldw _ _ _ | .lui _ _ | .lli _ _
  | .br _ | .bne _ | .be _ | .blt _ | .bge _ | .bwl _ | .ret | .jmp _ _
  | .pop _ | .popLr => none

/-- The word a load reads, computed as the meanings compute it. -/
def loadAddress (i : Instr) (s : State) : Option Word :=
  match i with
  | .ldw _ ra k => some (s.dataAddress (s.reg ra) k)
  | .pop _ | .popLr => some (s.popAddress (s.reg .r7))
  | .add _ _ _ | .addi _ _ _ | .addib _ _ | .adc _ _ _ | .adci _ _ _ | .neg _ _
  | .sub _ _ _ | .subi _ _ _ | .subib _ _ | .suc _ _ _ | .suci _ _ _ | .cmp _ _
  | .cmpi _ _ | .and _ _ _ | .or _ _ _ | .xor _ _ _ | .not _ _ | .nand _ _ _ | .nor _ _ _
  | .lsl _ _ _ | .lsr _ _ _ | .asr _ _ _ | .stw _ _ _ | .lui _ _ | .lli _ _
  | .br _ | .bne _ | .be _ | .blt _ | .bge _ | .bwl _ | .ret | .jmp _ _
  | .push _ | .pushLr => none

/-- From `s` to `t` nothing changed but PC, the registers `regs`, the flags `flags`, LR if `lr`, and
the memory word at `stored` if there is one: value, "has been written" mark and everything else of
the state alike. Memory is compared word by word, through the model's read of one word. -/
def OnlyWrites (s t : State) (regs : List Reg) (flags : List Flag) (lr : Bool)
    (stored : Option Word) : Prop :=
  (∀ r, r ∉ regs → t.reg r = s.reg r ∧ t.written.regs.get r = s.written.regs.get r) ∧
  (∀ f, f ∉ flags →
    t.flags.get f = s.flags.get f ∧ t.written.flags.get f = s.written.flags.get f) ∧
  (lr = false → t.lr = s.lr ∧ t.written.lr = s.written.lr) ∧
  (∀ a : Nat, (∀ w, stored = some w → a ≠ w.toNat) → t.mem.lookup a = s.mem.lookup a) ∧
  t.cfg = s.cfg ∧ t.imem = s.imem ∧ t.draws = s.draws

/-- The instruction answers a next state from `s`; that state differs from `s` only in PC and in the
registers, flags, link register and memory word named, and `post` holds of it. -/
def Completes (i : Instr) (s : State) (regs : List Reg) (flags : List Flag) (lr : Bool)
    (stored : Option Word) (post : State → Prop) : Prop :=
  ∃ t, exec i s = .next t ∧ OnlyWrites s t regs flags lr stored ∧ post t

/-- PC has moved to the next address, modulo 2^`PC_WIDTH` (R26). -/
def InSequence (s t : State) : Prop := t.pc = s.truncPc (s.pc + 1#16)

/-- The two states differ in PC at most. -/
def SameButPc (s t : State) : Prop := { s with pc := t.pc } = t

/-- The two states differ in the value of register `r` at most. -/
def SameButReg (r : Reg) (s t : State) : Prop := { s with regs := s.regs.set r (t.reg r) } = t

/-- The two states differ in the value of the carry flag at most. -/
def SameButCarry (s t : State) : Prop := { s with flags := { s.flags with c := t.flags.c } } = t

/-- What every reachable state keeps: the parameters lie in their ranges, PC and LR hold `PC_WIDTH`
bits, both memories are in canonical form and list installed words only, a unified memory still
lists every word of the launch, and while `MEM_ORG` is kept open no data word lies in the program's
range (R7, R25, R28, R58, R63). -/
structure State.Inv (s : State) : Prop where
  cfg_wf         : s.cfg.wf = true
  pc_width       : s.pc.toNat < 2 ^ s.cfg.pcWidth
  lr_width       : s.lr.toNat < 2 ^ s.cfg.pcWidth
  mem_wf         : s.mem.wf = true
  imem_wf        : s.imem.wf = true
  mem_installed  : s.mem.below s.cfg.memWords = true
  imem_installed : s.imem.below s.fetchWords = true
  launch_listed  : s.cfg.memOrg = .unified →
    ∀ a, (s.imem.lookup a).isSome = true → (s.mem.lookup a).isSome = true
  text_apart     : s.cfg.memOrg = .unresolved →
    ∀ a, (s.imem.lookup a).isSome = true → s.mem.lookup a = none

/-- The run has ended: PC is the address of the word 0xF000, a BR to itself (R233). A fetch the spec
does not settle (R63) is no end. -/
def State.ended (s : State) : Bool :=
  decide (s.pc.toNat < s.fetchWords) && !s.fetchDraws && s.fetchedWord == some 0xF000#16

/-- A run of at most `k` steps reaches its end without a fault or a refusal (R210, R233): the final
state is the state on arrival. -/
def endsIn : Nat → State → Option State
  | 0, s => if s.ended then some s else none
  | k + 1, s =>
    if s.ended then some s
    else match step s with
      | .next t => endsIn k t
      | .fault _ => none
      | .refused _ => none

end Sys2Proof.Machine
end

