-- ==== Sys2Proof/Certificates/Slice0/Obligations.lean ====
section
/-! DEFINITION. The statements for the provers, each a formal reading of rules of spec/. -/

open Sys2Proof Sys2Proof.Machine

/-! ### Encoding and decoding -/

/-- Decoding the word of a well-formed instruction gives the instruction back, every operand at
every value its field admits (R81 to R87, R93 to R96). -/
def Obligations.DecodeEncodeRoundTrip : Prop :=
  ∀ i : Instr, i.wf = true → decode (encode i) = .ok i

/-- Whatever word is decoded, the instruction's operands lie in their ranges (R88 to R92). -/
def Obligations.DecodedInstructionsAreWellFormed : Prop :=
  ∀ (w : Word) (i : Instr), decode w = .ok i → i.wf = true

/-- R97 (the spec's own decision D23): exactly the words 0xC000 to 0xCFFF and 0xD800 to 0xDFFF are
no instruction, and a step that fetches one stops with IllegalInstruction(word, pc) whatever the
registers hold. -/
def Obligations.UnassignedOpcodesAreIllegal : Prop :=
  ∀ w : Word,
    let unassigned := (0xC000 ≤ w.toNat ∧ w.toNat ≤ 0xCFFF) ∨ (0xD800 ≤ w.toNat ∧ w.toNat ≤ 0xDFFF)
    (unassigned → decode w = .error (.unassignedOpcode w)) ∧
    (¬ unassigned → ∃ i, decode w = .ok i) ∧
    (unassigned → ∀ s : State, s.pc.toNat < s.fetchWords → s.fetchedWord = some w →
      step s = .fault (.illegalInstruction w s.pc))

/-- R98 (beyond the cells marked X, the spec's own decision D17): the word of an instruction with
any values in the bits its row of R98's table lists decodes to that instruction; with those bits 0
it is the word the assembler emits; a machine that takes the cautious option refuses a word with one
of them set. -/
def Obligations.IgnoredBitsDoNotMatter : Prop :=
  (∀ (w : Word) (i : Instr),
    decode w = .ok i ↔ (i.wf = true ∧ w &&& ~~~(ignoredMask i) = encode i)) ∧
  (∀ rd ra rb : Reg, ∀ k : Nat,
    ignoredMask (.add rd ra rb) = 0x0003#16 ∧ ignoredMask (.adc rd ra rb) = 0x0003#16 ∧
    ignoredMask (.sub rd ra rb) = 0x0003#16 ∧ ignoredMask (.suc rd ra rb) = 0x0003#16 ∧
    ignoredMask (.and rd ra rb) = 0x0003#16 ∧ ignoredMask (.or rd ra rb) = 0x0003#16 ∧
    ignoredMask (.xor rd ra rb) = 0x0003#16 ∧ ignoredMask (.nand rd ra rb) = 0x0003#16 ∧
    ignoredMask (.nor rd ra rb) = 0x0003#16 ∧ ignoredMask (.neg rd ra) = 0x001F#16 ∧
    ignoredMask (.not rd ra) = 0x001F#16 ∧ ignoredMask (.cmp ra rb) = 0x0703#16 ∧
    ignoredMask (.cmpi ra k) = 0x0700#16 ∧ ignoredMask (.lsl rd ra k) = 0x0010#16 ∧
    ignoredMask (.lsr rd ra k) = 0x0010#16 ∧ ignoredMask (.asr rd ra k) = 0x0010#16 ∧
    ignoredMask .ret = 0x00FF#16 ∧ ignoredMask (.push ra) = 0x031F#16 ∧
    ignoredMask (.pop ra) = 0x031F#16 ∧ ignoredMask .pushLr = 0x03FF#16 ∧
    ignoredMask .popLr = 0x03FF#16) ∧
  (∀ (s : State) (w : Word) (i : Instr), s.pc.toNat < s.fetchWords → s.fetchedWord = some w →
    decode w = .ok i → s.cfg.ignoredBits = .refuse → w &&& ignoredMask i ≠ 0#16 →
    step s = .refused (.nonCanonicalEncoding w))

/-- One word of each format, written out from the encoding tables (S1 to S4 of 95_test_vectors.md),
decodes to its instruction. -/
def Obligations.SampleWordsDecode : Prop :=
  decode 0x1570#16 = .ok (.add .r5 .r3 .r4) ∧ decode 0x7569#16 = .ok (.subi .r5 .r3 9) ∧
  decode 0x1D96#16 = .ok (.addib .r5 150) ∧ decode 0x4562#16 = .ok (.stw .r5 .r3 2) ∧
  decode 0xF304#16 = .ok (.bwl 4) ∧ decode 0xF6FE#16 = .ok (.bne (-2)) ∧
  decode 0xF162#16 = .ok (.jmp .r3 2) ∧ decode 0x0840#16 = .ok (.pop .r2) ∧
  decode 0x4C00#16 = .ok .pushLr ∧ decode 0x0000#16 = .ok (.ldw .r0 .r0 0)

/-- R96: under opcode 11110, the eight values of Cond select the eight control transfers, imm8 or Ra
and imm5 their operands. -/
def Obligations.CondSelectsTheControlTransfer : Prop :=
  ∀ w : Word, bits w 15 11 = 0b11110 →
    (bits w 10 8 = 0b000 → decode w = .ok (.br (fieldOffset w))) ∧
    (bits w 10 8 = 0b001 → decode w = .ok (.jmp (fieldRa w) (fieldImm5 w))) ∧
    (bits w 10 8 = 0b010 → decode w = .ok .ret) ∧
    (bits w 10 8 = 0b011 → decode w = .ok (.bwl (fieldOffset w))) ∧
    (bits w 10 8 = 0b100 → decode w = .ok (.blt (fieldOffset w))) ∧
    (bits w 10 8 = 0b101 → decode w = .ok (.bge (fieldOffset w))) ∧
    (bits w 10 8 = 0b110 → decode w = .ok (.bne (fieldOffset w))) ∧
    (bits w 10 8 = 0b111 → decode w = .ok (.be (fieldOffset w)))

/-! ### Fetch and step -/

/-- A step runs the decoded instruction: on the state as it stands, or, where the spec does not
settle the fetch (R63), on that state with the model's counter of such fetches one higher. -/
def Obligations.StepRunsTheDecodedInstruction : Prop :=
  ∀ (s : State) (w : Word) (i : Instr), s.pc.toNat < s.fetchWords → s.fetchedWord = some w →
    decode w = .ok i → (s.cfg.ignoredBits = .ignore ∨ w &&& ignoredMask i = 0#16) →
    (s.fetchDraws = false → step s = exec i s) ∧
    (s.fetchDraws = true → step s = exec i { s with draws := s.draws + 1 })

/-- What a fetch reads (R32, R51, R53, R63): the program text unless memory is unified; the one
array when it is unified and still holds what the launch placed there; either of the two words, and
the spec does not say which, once a store has changed it (the free value of log 9). Where nothing
supplied the word, nothing is read under UNWRITTEN_READ = fault and some word under draw, in a
unified memory the one an LDW draws there (R36, the spec's own decision D27; that R36 covers a fetch
is the model's reading, log 10, and that the two agree log 6). -/
def Obligations.FetchReadsTheProgram : Prop :=
  ∀ s : State,
    let launched := s.imem.lookup s.pc.toNat
    let held := s.mem.lookup s.pc.toNat
    let reads := fun (x : Option Word) =>
      (∀ w, x = some w → s.fetchedWord = some w) ∧
      (x = none → s.cfg.unwrittenRead = .fault → s.fetchedWord = none) ∧
      (x = none → s.cfg.unwrittenRead = .draw → ∃ w, s.fetchedWord = some w)
    (s.cfg.memOrg ≠ .unified → reads launched ∧ s.fetchDraws = false) ∧
    (s.cfg.memOrg = .unified → held = launched → reads held ∧ s.fetchDraws = false ∧
      (held = none → s.fetchedWord = s.loadValue s.pc)) ∧
    (s.cfg.memOrg = .unified → held ≠ launched →
      s.fetchDraws = true ∧ (reads held ∨ reads launched))

/-- The word withFetchWord places is the one the next step runs, from any state of a machine that
ignores ignored bits, and placing it changes no register, flag or PC. -/
def Obligations.PlacedWordRunsNext : Prop :=
  ∀ (s : State) (nbits w : Nat) (i : Instr), decode (tableWord nbits w) = .ok i →
    s.cfg.ignoredBits = .ignore →
    let t := s.withFetchWord nbits w
    step t = exec i t ∧ t.regs = s.regs ∧ t.flags = s.flags ∧ t.lr = s.lr ∧ t.pc = s.pc ∧
    t.written = s.written

/-- Under separate memories, and while MEM_ORG is kept open, no step changes what any later fetch
reads (R32, R63). While it is kept open a word that nothing supplied may change, if unwritten reads
draw and the data word at its address has changed, since the two may be one word (log 10). -/
def Obligations.NoStepChangesTheProgram : Prop :=
  ∀ (s t : State), s.cfg.memOrg ≠ .unified → step s = .next t →
    ∀ p : Word, (s.cfg.memOrg = .separate ∨ s.cfg.unwrittenRead = .fault ∨
      (s.imem.lookup p.toNat).isSome = true ∨ t.mem.lookup p.toNat = s.mem.lookup p.toNat) →
    ({ t with pc := p } : State).fetchedWord = ({ s with pc := p } : State).fetchedWord

/-! ### Reset and launch -/

/-- After reset PC is RESET_PC and nothing else is written: no register byte, not LR, no flag, no
memory word, no program text (R35, the spec's own decision D26; what the registers hold is the
model's choice, log 1, and not stated). -/
def Obligations.ResetLeavesEverythingUnwritten : Prop :=
  State.reset.pc = State.reset.cfg.resetPc ∧
  (∀ r, State.reset.written.regs.get r = ⟨false, false⟩) ∧ State.reset.written.lr = false ∧
  (∀ f, State.reset.written.flags.get f = false) ∧
  (∀ a, State.reset.mem.lookup a = none) ∧ (∀ a, State.reset.imem.lookup a = none)

/-- The launch supplies the program text at its address, PC = RESET_PC, the data words the host
defines, and nothing else (R230, the spec's own decision D26). That a unified array holds the text
where the two overlap is the model's choice (log 33). -/
def Obligations.LaunchSuppliesProgramAndData : Prop :=
  ∀ (cfg : Config) (base : Nat) (text : List Word) (data : List (Nat × Word)),
    let s := State.launch cfg base text data
    let inText := fun a : Nat => base ≤ a ∧ a < base + text.length
    let defined := fun a : Nat => (data.reverse.find? (fun c => c.1 == a)).map (fun c => c.2)
    s.cfg = cfg ∧ s.pc = cfg.resetPc ∧
    (∀ a, inText a → s.imem.lookup a = text[a - base]?) ∧
    (cfg.memOrg ≠ .unified → ∀ a, ¬ inText a → s.imem.lookup a = none) ∧
    (cfg.memOrg ≠ .unified → ∀ a, s.mem.lookup a = defined a) ∧
    (cfg.memOrg = .unified → ∀ a, s.mem.lookup a = s.imem.lookup a) ∧
    (cfg.memOrg = .unified → ∀ a, ¬ inText a → s.mem.lookup a = defined a) ∧
    (∀ r, s.written.regs.get r = ⟨false, false⟩) ∧ s.written.lr = false ∧
    (∀ f, s.written.flags.get f = false)

/-! ### The invariant -/

/-- From every state that meets the invariant, reached by a run or not, a step that goes on leads to
a state that meets it. -/
def Obligations.EveryStepKeepsTheInvariant : Prop :=
  ∀ s t : State, s.Inv → step s = .next t → t.Inv

/-- The state after reset meets the invariant. Its clauses on the value of LR and on the parameters
rest on the model's own reset values (log 1, 2, 3, 7). -/
def Obligations.ResetMeetsTheInvariant : Prop := State.reset.Inv

/-- A launch whose program and data fit the installed memory, and, while MEM_ORG is kept open, whose
data stay clear of the program, meets the invariant. The clause on LR rests on the model's own reset
value (log 1). -/
def Obligations.LaunchMeetsTheInvariant : Prop :=
  ∀ (cfg : Config) (base : Nat) (text : List Word) (data : List (Nat × Word)),
    cfg.wf = true →
    base + text.length ≤ (State.launch cfg base text data).fetchWords →
    (∀ c ∈ data, c.1 < cfg.memWords) →
    (cfg.memOrg = .unresolved → ∀ c ∈ data, ¬ (base ≤ c.1 ∧ c.1 < base + text.length)) →
    (State.launch cfg base text data).Inv

/-! ### Rules of the whole machine -/

/-- Every instruction that goes on changes only what the tables of R24 and R30 say it writes, LR if
it is BWL or POP LR (R28), and the one memory word it stores to; program text and parameters never.
-/
def Obligations.InstructionsChangeOnlyWhatTheyWrite : Prop :=
  ∀ (i : Instr) (s t : State), exec i s = .next t →
    OnlyWrites s t (destRegs i) (flagsWritten i) (writesLr i) (storeAddress i s)

/-- An instruction that is no control transfer ends with PC at the next address modulo 2^PC_WIDTH,
and a control transfer leaves PC below 2^PC_WIDTH (R26; the wrap is the spec's own decision D8). -/
def Obligations.PcAdvancesModuloItsWidth : Prop :=
  ∀ (i : Instr) (s t : State), s.cfg.pcWidth ≤ 16 → exec i s = .next t →
    (isControl i = false → t.pc.toNat = (s.pc.toNat + 1) % 2 ^ s.cfg.pcWidth) ∧
    (isControl i = true → t.pc.toNat < 2 ^ s.cfg.pcWidth)

/-- An instruction marks what it writes (R23, R36; the spec's own decisions D22, D27): both bytes of
a register written whole, the upper byte alone for LUI, the lower for LLI, LR, and each flag; and no
mark is ever taken away. -/
def Obligations.WritesAreMarked : Prop :=
  ∀ (i : Instr) (s t : State), exec i s = .next t →
    (∀ r, (s.written.regs.get r).upper = true → (t.written.regs.get r).upper = true) ∧
    (∀ r, (s.written.regs.get r).lower = true → (t.written.regs.get r).lower = true) ∧
    (s.written.lr = true → t.written.lr = true) ∧
    (∀ f, s.written.flags.get f = true → t.written.flags.get f = true) ∧
    (∀ a, (s.mem.lookup a).isSome = true → (t.mem.lookup a).isSome = true) ∧
    (∀ rd k, i = .lui rd k → t.written.regs.get rd = ⟨true, (s.written.regs.get rd).lower⟩) ∧
    (∀ rd k, i = .lli rd k → t.written.regs.get rd = ⟨(s.written.regs.get rd).upper, true⟩) ∧
    ((∀ rd k, i ≠ .lui rd k) → (∀ rd k, i ≠ .lli rd k) → ∀ r ∈ destRegs i,
      t.written.regs.get r = ⟨true, true⟩) ∧
    (∀ f ∈ flagsWritten i, t.written.flags.get f = true) ∧
    (writesLr i = true → t.written.lr = true)

/-- The first source, in the order the pseudocode reads them, that may not be read is the one the
instruction faults on (R36, R213; the spec's own decisions D27, D24). -/
def Obligations.UnreadableSourcesFault : Prop :=
  ∀ (i : Instr) (s : State) (x : Source), (reads i).find? (fun y => !s.readable y) = some x →
    exec i s = .fault (.unwrittenRead x)

/-- A register, LR or flag may be read exactly when it has been written (a register: both bytes) or
unwritten reads draw a value (R23, R36). -/
def Obligations.ReadableMeansWrittenOrDrawn : Prop :=
  ∀ s : State,
    (∀ r, s.readable (.reg r) = true ↔
      (s.cfg.unwrittenRead = .draw ∨
        ((s.written.regs.get r).upper = true ∧ (s.written.regs.get r).lower = true))) ∧
    (s.readable .lr = true ↔ (s.cfg.unwrittenRead = .draw ∨ s.written.lr = true)) ∧
    (∀ f, s.readable (.flag f) = true ↔
      (s.cfg.unwrittenRead = .draw ∨ s.written.flags.get f = true))

/-- Every one of the 38 instructions answers a next state whenever its sources may be read and the
word it loads or stores is installed, is not refused as program text, and, for a load, has a
value (R36, R58, R63, R213). -/
def Obligations.EveryInstructionCompletes : Prop :=
  ∀ (i : Instr) (s : State), (∀ x ∈ reads i, s.readable x = true) →
    (∀ a, storeAddress i s = some a → a.toNat < s.dataWords ∧ s.textClash a = false) →
    (∀ a, loadAddress i s = some a →
      a.toNat < s.dataWords ∧ s.readable (.memWord a) = true) →
    ∃ t, exec i s = .next t

/-- On a machine whose unwritten reads draw a value, whose memories are separate or unified (MEM_ORG
is not kept open, where a store into the program is refused) and all of whose 65536 data words are
installed, every instruction answers a next state from every state. -/
def Obligations.NothingStopsAFullyInstalledMachine : Prop :=
  ∀ (i : Instr) (s : State), s.cfg.unwrittenRead = .draw → s.cfg.memOrg ≠ .unresolved →
    65536 ≤ s.dataWords → ∃ t, exec i s = .next t

/-- An access or a fetch outside installed memory raises MemoryOutOfRange (R58, the spec's own
decision D9). The model's choices, not the spec's: a data address of more than ADDR_WIDTH bits is
outside (log 31), a fetch while MEM_ORG is kept open is bounded by IMEM_WORDS alone (log 34), and a
store address that also lies in the program's range faults as out of range (log 35). -/
def Obligations.AccessOutsideInstalledMemoryFaults : Prop :=
  (∀ (i : Instr) (s : State) (a : Word), (∀ x ∈ reads i, s.readable x = true) →
    (storeAddress i s = some a ∨ loadAddress i s = some a) → s.dataWords ≤ a.toNat →
    exec i s = .fault (.memoryOutOfRange a .data)) ∧
  (∀ s : State, (s.cfg.memOrg ≠ .unified → s.cfg.imemWords ≤ s.pc.toNat) →
    (s.cfg.memOrg = .unified → s.cfg.memWords ≤ s.pc.toNat) →
    step s = .fault (.memoryOutOfRange s.pc .fetch))

/-- While MEM_ORG is kept open, a store into the program's addresses is refused, and a data read of
one is a read of an unwritten word, whatever data memory lists there (R63, the spec's own decision
D30). -/
def Obligations.OpenProgramTextIsNotData : Prop :=
  ∀ (i : Instr) (s : State) (a : Word), s.cfg.memOrg = .unresolved →
    (s.imem.lookup a.toNat).isSome = true → a.toNat < s.dataWords →
    (∀ x ∈ reads i, s.readable x = true) →
    (storeAddress i s = some a → exec i s = .refused (.storeToProgramText a)) ∧
    (loadAddress i s = some a → s.cfg.unwrittenRead = .fault →
      exec i s = .fault (.unwrittenRead (.memWord a)))

/-- A load of an installed word nothing has written, or of a program address while MEM_ORG is kept
open, faults under UNWRITTEN_READ = fault; under draw it completes, whatever the value drawn (R36
and R63, the spec's own decisions D27 and D30). Loading a word of that address again draws the same
value, in every state that agrees on the parameters, the program and that word, whether or not a run
leads there: R36 asks this of later states of one run, and one value for each address in all runs is
the model's choice (log 6). PopsOfUnwrittenWordsFaultOrDraw says the same of POP. -/
def Obligations.UnwrittenWordsFaultOrDraw : Prop :=
  ∀ (rd ra : Reg) (k : Nat) (s : State),
    let a := s.dataAddress (s.reg ra) k
    s.readable (.reg ra) = true → a.toNat < s.dataWords →
    (s.mem.lookup a.toNat = none ∨ s.textClash a = true) →
    (s.cfg.unwrittenRead = .fault →
      exec (.ldw rd ra k) s = .fault (.unwrittenRead (.memWord a))) ∧
    (s.cfg.unwrittenRead = .draw → ∃ w : Word,
      Completes (.ldw rd ra k) s [rd] [] false none (fun t => t.reg rd = w) ∧
      ∀ (u : State) (rd' ra' : Reg) (k' : Nat), u.cfg = s.cfg → u.imem = s.imem →
        u.mem.lookup a.toNat = s.mem.lookup a.toNat → u.dataAddress (u.reg ra') k' = a →
        Completes (.ldw rd' ra' k') u [rd'] [] false none (fun t => t.reg rd' = w))

/-- Where unwritten reads draw a value, no instruction and no step faults because something is
unwritten (R36, R211, the spec's own decision D27; for the fetch of a word nothing supplied the
model's reading, log 10). -/
def Obligations.DrawingMachinesNeverFaultOnReads : Prop :=
  ∀ (i : Instr) (s : State) (x : Source), s.cfg.unwrittenRead = .draw →
    exec i s ≠ .fault (.unwrittenRead x) ∧ step s ≠ .fault (.unwrittenRead x)

/-- R27: PC is read only by the relative control transfers: from two states that differ in PC alone
every other instruction leads to states that differ in PC at most. -/
def Obligations.OnlyRelativeTransfersReadPc : Prop :=
  ∀ (i : Instr) (s t : State) (p : Word), isRelative i = false → exec i s = .next t →
    ∃ u, exec i { s with pc := p } = .next u ∧ SameButPc t u

/-- R24: an instruction's outcome does not depend on a register it does not read: changing that
register changes nothing of the next state but, at most, that register. -/
def Obligations.UnreadRegistersDoNotMatter : Prop :=
  ∀ (i : Instr) (s t : State) (r : Reg) (w : Word), .reg r ∉ reads i → exec i s = .next t →
    ∃ u, exec i { s with regs := s.regs.set r w } = .next u ∧ SameButReg r t u

/-- R30: `c` is read only by ADC, ADCI, SUC and SUCI; for every other instruction, changing it
changes nothing of the next state but, at most, `c`. -/
def Obligations.OnlyCarryInstructionsReadCarry : Prop :=
  ∀ (i : Instr) (s t : State) (b : Bool), (∀ rd ra rb, i ≠ .adc rd ra rb) →
    (∀ rd ra k, i ≠ .adci rd ra k) → (∀ rd ra rb, i ≠ .suc rd ra rb) →
    (∀ rd ra k, i ≠ .suci rd ra k) → exec i s = .next t →
    ∃ u, exec i { s with flags := { s.flags with c := b } } = .next u ∧ SameButCarry t u

/-! ### Arithmetic -/

/-- AddFlags is the two's-complement adder; `v` is also exactly signed overflow of the exact sum
(R120, the spec's own decision D18). -/
def Obligations.AddFlagsIsTheAdder : Prop :=
  ∀ (a b : Word) (cin : Bool),
    let sum := a.toNat + b.toNat + cin.toNat
    let r := addFlags a b cin
    r.value.toNat = sum % 65536 ∧ (r.flags.c = true ↔ 65536 ≤ sum) ∧
    (r.flags.v = true ↔ (a.msb = b.msb ∧ r.value.msb ≠ a.msb)) ∧
    (r.flags.v = true ↔ (a.toInt + b.toInt + cin.toNat < -32768 ∨
      32767 < a.toInt + b.toInt + cin.toNat)) ∧
    r.flags.n = r.value.msb ∧ (r.flags.z = true ↔ r.value.toNat = 0)

/-- SubFlags is subtraction modulo 65536 with the carry and overflow of the exact difference (R121,
the spec's own decisions D18, D19). -/
def Obligations.SubFlagsIsSubtraction : Prop :=
  ∀ (p : SubCarry) (a b : Word) (cin : Bool),
    let borrow : Int := 1 - cin.toNat
    let carry := (b.toNat : Int) + borrow ≤ a.toNat
    let exact := a.toInt - b.toInt - borrow
    let r := subFlags p a b cin
    (r.value.toNat : Int) = ((a.toNat : Int) - b.toNat - borrow) % 65536 ∧
    (p = .notBorrow → (r.flags.c = true ↔ carry)) ∧ (p = .borrow → (r.flags.c = true ↔ ¬ carry)) ∧
    (r.flags.v = true ↔ (a.msb ≠ b.msb ∧ r.value.msb ≠ a.msb)) ∧
    (r.flags.v = true ↔ (exact < -32768 ∨ 32767 < exact)) ∧
    r.flags.n = r.value.msb ∧ (r.flags.z = true ↔ r.value.toNat = 0)

/-- The widened immediates, as numbers (R10, R89, R91; the spec's own decisions D12, D15). -/
def Obligations.ImmediatesAreWidened : Prop :=
  (∀ k : Nat, k < 32 → (extImm5 .zero k).toNat = k ∧
    (extImm5 .sign k).toInt = if k < 16 then (k : Int) else (k : Int) - 32) ∧
  (∀ k : Nat, k < 256 → (zextImm8 k).toNat = k)

/-- ADD, ADDI, ADDIB (R124, R125, R160): result, flags, PC, opcode and frame. -/
def Obligations.AdditionResults : Prop :=
  ∀ (s : State) (rd ra rb : Reg) (k : Nat),
    (s.readable (.reg ra) = true → s.readable (.reg rb) = true →
      let r := addFlags (s.reg ra) (s.reg rb) false
      Completes (.add rd ra rb) s [rd] [.c, .v, .n, .z] false none
        (fun t => t.reg rd = r.value ∧ t.flags = r.flags ∧ InSequence s t)) ∧
    (s.readable (.reg ra) = true →
      let r := addFlags (s.reg ra) (extImm5 s.cfg.imm5Alu k) false
      Completes (.addi rd ra k) s [rd] [.c, .v, .n, .z] false none
        (fun t => t.reg rd = r.value ∧ t.flags = r.flags ∧ InSequence s t)) ∧
    (s.readable (.reg rd) = true →
      let r := addFlags (s.reg rd) (zextImm8 k) false
      Completes (.addib rd k) s [rd] [.c, .v, .n, .z] false none
        (fun t => t.reg rd = r.value ∧ t.flags = r.flags ∧ InSequence s t)) ∧
    (∀ w, bits w 15 11 = 0b00010 → decode w = .ok (.add (fieldRd w) (fieldRa w) (fieldRb w))) ∧
    (∀ w, bits w 15 11 = 0b00110 → decode w = .ok (.addi (fieldRd w) (fieldRa w) (fieldImm5 w))) ∧
    (∀ w, bits w 15 11 = 0b00011 → decode w = .ok (.addib (fieldRd w) (fieldImm8 w)))

/-- ADC, ADCI (R126, R127): the carry flag is the carry in. -/
def Obligations.CarryAdditionResults : Prop :=
  ∀ (s : State) (rd ra rb : Reg) (k : Nat), s.readable (.flag .c) = true →
    s.readable (.reg ra) = true →
    (s.readable (.reg rb) = true →
      let r := addFlags (s.reg ra) (s.reg rb) s.flags.c
      Completes (.adc rd ra rb) s [rd] [.c, .v, .n, .z] false none
        (fun t => t.reg rd = r.value ∧ t.flags = r.flags ∧ InSequence s t)) ∧
    (let r := addFlags (s.reg ra) (extImm5 s.cfg.imm5Alu k) s.flags.c
     Completes (.adci rd ra k) s [rd] [.c, .v, .n, .z] false none
        (fun t => t.reg rd = r.value ∧ t.flags = r.flags ∧ InSequence s t)) ∧
    (∀ w, bits w 15 11 = 0b00100 → decode w = .ok (.adc (fieldRd w) (fieldRa w) (fieldRb w))) ∧
    (∀ w, bits w 15 11 = 0b00101 → decode w = .ok (.adci (fieldRd w) (fieldRa w) (fieldImm5 w)))

/-- NEG, SUB, SUBI, SUBIB (R128, R129, R130, R161). -/
def Obligations.SubtractionResults : Prop :=
  ∀ (s : State) (rd ra rb : Reg) (k : Nat),
    (s.readable (.reg ra) = true →
      let r := subFlags s.cfg.subCarry 0#16 (s.reg ra) true
      Completes (.neg rd ra) s [rd] [.c, .v, .n, .z] false none
        (fun t => t.reg rd = r.value ∧ t.flags = r.flags ∧ InSequence s t)) ∧
    (s.readable (.reg ra) = true → s.readable (.reg rb) = true →
      let r := subFlags s.cfg.subCarry (s.reg ra) (s.reg rb) true
      Completes (.sub rd ra rb) s [rd] [.c, .v, .n, .z] false none
        (fun t => t.reg rd = r.value ∧ t.flags = r.flags ∧ InSequence s t)) ∧
    (s.readable (.reg ra) = true →
      let r := subFlags s.cfg.subCarry (s.reg ra) (extImm5 s.cfg.imm5Alu k) true
      Completes (.subi rd ra k) s [rd] [.c, .v, .n, .z] false none
        (fun t => t.reg rd = r.value ∧ t.flags = r.flags ∧ InSequence s t)) ∧
    (s.readable (.reg rd) = true →
      let r := subFlags s.cfg.subCarry (s.reg rd) (zextImm8 k) true
      Completes (.subib rd k) s [rd] [.c, .v, .n, .z] false none
        (fun t => t.reg rd = r.value ∧ t.flags = r.flags ∧ InSequence s t)) ∧
    (∀ w, bits w 15 11 = 0b11010 → decode w = .ok (.neg (fieldRd w) (fieldRa w))) ∧
    (∀ w, bits w 15 11 = 0b01010 → decode w = .ok (.sub (fieldRd w) (fieldRa w) (fieldRb w))) ∧
    (∀ w, bits w 15 11 = 0b01110 → decode w = .ok (.subi (fieldRd w) (fieldRa w) (fieldImm5 w))) ∧
    (∀ w, bits w 15 11 = 0b01011 → decode w = .ok (.subib (fieldRd w) (fieldImm8 w)))

/-- SUC, SUCI (R131, R132): the exact value written is Ra minus the operand, minus NOT c when
SUB_CARRY is not_borrow and minus c when it is borrow; the flags are SubFlags'. That SUB then SUC
subtracts a two-word number is TwoWordSubtraction. -/
def Obligations.CarrySubtractionResults : Prop :=
  ∀ (s : State) (rd ra rb : Reg) (k : Nat), s.readable (.flag .c) = true →
    s.readable (.reg ra) = true →
    let cin := match s.cfg.subCarry with
      | .notBorrow => s.flags.c
      | .borrow => !s.flags.c
    (s.readable (.reg rb) = true →
      let r := subFlags s.cfg.subCarry (s.reg ra) (s.reg rb) cin
      Completes (.suc rd ra rb) s [rd] [.c, .v, .n, .z] false none
        (fun t => t.reg rd = r.value ∧ t.flags = r.flags ∧ InSequence s t)) ∧
    (let r := subFlags s.cfg.subCarry (s.reg ra) (extImm5 s.cfg.imm5Alu k) cin
     Completes (.suci rd ra k) s [rd] [.c, .v, .n, .z] false none
        (fun t => t.reg rd = r.value ∧ t.flags = r.flags ∧ InSequence s t)) ∧
    (∀ w, bits w 15 11 = 0b01100 → decode w = .ok (.suc (fieldRd w) (fieldRa w) (fieldRb w))) ∧
    (∀ w, bits w 15 11 = 0b01101 → decode w = .ok (.suci (fieldRd w) (fieldRa w) (fieldImm5 w)))

/-- CMP, CMPI (R133, R134): the flags of the subtraction and no register; `z` says equal, `n != v`
says signed less, and `c` under not_borrow says unsigned greater or equal. -/
def Obligations.ComparisonResults : Prop :=
  ∀ (s : State) (ra rb : Reg) (k : Nat), s.readable (.reg ra) = true →
    let tells := fun (a b : Word) (f : Flags) =>
      f = (subFlags s.cfg.subCarry a b true).flags ∧ (f.z = true ↔ a = b) ∧
      (f.n ≠ f.v ↔ a.toInt < b.toInt) ∧
      (s.cfg.subCarry = .notBorrow → (f.c = true ↔ b.toNat ≤ a.toNat))
    (s.readable (.reg rb) = true →
      Completes (.cmp ra rb) s [] [.c, .v, .n, .z] false none
        (fun t => tells (s.reg ra) (s.reg rb) t.flags ∧ InSequence s t)) ∧
    (Completes (.cmpi ra k) s [] [.c, .v, .n, .z] false none
        (fun t => tells (s.reg ra) (extImm5 s.cfg.imm5Alu k) t.flags ∧ InSequence s t)) ∧
    (∀ w, bits w 15 11 = 0b00111 → decode w = .ok (.cmp (fieldRa w) (fieldRb w))) ∧
    (∀ w, bits w 15 11 = 0b01111 → decode w = .ok (.cmpi (fieldRa w) (fieldImm5 w)))

/-- CMP followed by a conditional branch (R133, R182 to R185): BE and BNE are taken on equality and
inequality, BLT and BGE exactly on the signed order of the two registers, under either SUB_CARRY. -/
def Obligations.CompareThenBranchDecidesTheOrder : Prop :=
  ∀ (s : State) (ra rb : Reg) (off : Int), s.readable (.reg ra) = true →
    s.readable (.reg rb) = true → ∃ t, exec (.cmp ra rb) s = .next t ∧
    let a := s.reg ra
    let b := s.reg rb
    let goes := fun (i : Instr) (taken : Prop) => ∃ u, exec i t = .next u ∧
      (taken → u.pc = t.truncPc (t.pc + BitVec.ofInt 16 off)) ∧ (¬ taken → InSequence t u)
    goes (.be off) (a = b) ∧ goes (.bne off) (a ≠ b) ∧
    goes (.blt off) (a.toInt < b.toInt) ∧ goes (.bge off) (b.toInt ≤ a.toInt)

/-- ADD of the low words then ADC of the high words adds two-word numbers modulo 2^32 (R120, R126).
-/
def Obligations.TwoWordAddition : Prop :=
  ∀ (s : State) (dl dh al ah bl bh : Reg), dl ≠ ah → dl ≠ bh → dh ≠ dl →
    (∀ r ∈ [al, ah, bl, bh], s.readable (.reg r) = true) →
    ∃ t u, exec (.add dl al bl) s = .next t ∧ exec (.adc dh ah bh) t = .next u ∧
      let num := fun (hi lo : Word) => hi.toNat * 65536 + lo.toNat
      num (u.reg dh) (u.reg dl) =
        (num (s.reg ah) (s.reg al) + num (s.reg bh) (s.reg bl)) % 2 ^ 32

/-- R131: under either value of SUB_CARRY, SUB of the low words then SUC of the high words subtracts
two-word numbers modulo 2^32. -/
def Obligations.TwoWordSubtraction : Prop :=
  ∀ (s : State) (dl dh al ah bl bh : Reg), dl ≠ ah → dl ≠ bh → dh ≠ dl →
    (∀ r ∈ [al, ah, bl, bh], s.readable (.reg r) = true) →
    ∃ t u, exec (.sub dl al bl) s = .next t ∧ exec (.suc dh ah bh) t = .next u ∧
      let num := fun (hi lo : Word) => (hi.toNat : Int) * 65536 + lo.toNat
      num (u.reg dh) (u.reg dl) =
        (num (s.reg ah) (s.reg al) - num (s.reg bh) (s.reg bl)) % 2 ^ 32

/-- Result, `n`, `v` and `z` of a subtraction are the same under both values of SUB_CARRY, and `c`
is the opposite (R121). -/
def Obligations.SubCarryChangesOnlyCarry : Prop :=
  ∀ (a b : Word) (cin : Bool),
    let p := subFlags .notBorrow a b cin
    let q := subFlags .borrow a b cin
    p.value = q.value ∧ p.flags.n = q.flags.n ∧ p.flags.v = q.flags.v ∧ p.flags.z = q.flags.z ∧
    p.flags.c ≠ q.flags.c

/-! ### Logic and shifts -/

/-- AND, OR, XOR, NOT, NAND, NOR (R135 to R140): the result bit by bit; `z` alone is written (R122,
the spec's own decision D20, log 17). Where Ra may not be read each of them faults on Ra, XOR of a
register with itself too (R137), and also where Rb may not be read either: R36 and R213, the spec's
own decisions D27 and D24 (log 28). -/
def Obligations.LogicResults : Prop :=
  ∀ (s : State) (rd ra rb : Reg),
    let gives := fun (i : Instr) (f : Bool → Bool → Bool) =>
      Completes i s [rd] [.z] false none (fun t =>
        (∀ j : Nat, j < 16 → (t.reg rd).getLsbD j =
          f ((s.reg ra).getLsbD j) ((s.reg rb).getLsbD j)) ∧
        (t.flags.z = true ↔ (t.reg rd).toNat = 0) ∧ InSequence s t)
    (s.readable (.reg ra) = true → gives (.not rd ra) (fun a _ => !a)) ∧
    (s.readable (.reg ra) = true → s.readable (.reg rb) = true →
      gives (.and rd ra rb) (fun a b => a && b) ∧ gives (.or rd ra rb) (fun a b => a || b) ∧
      gives (.xor rd ra rb) (fun a b => a != b) ∧ gives (.nand rd ra rb) (fun a b => !(a && b)) ∧
      gives (.nor rd ra rb) (fun a b => !(a || b))) ∧
    (s.readable (.reg ra) = false →
      ∀ i ∈ [Instr.and rd ra rb, .or rd ra rb, .xor rd ra rb, .not rd ra, .nand rd ra rb,
        .nor rd ra rb], exec i s = .fault (.unwrittenRead (.reg ra))) ∧
    (∀ w, bits w 15 11 = 0b10000 → decode w = .ok (.and (fieldRd w) (fieldRa w) (fieldRb w))) ∧
    (∀ w, bits w 15 11 = 0b10001 → decode w = .ok (.or (fieldRd w) (fieldRa w) (fieldRb w))) ∧
    (∀ w, bits w 15 11 = 0b10011 → decode w = .ok (.xor (fieldRd w) (fieldRa w) (fieldRb w))) ∧
    (∀ w, bits w 15 11 = 0b10010 → decode w = .ok (.not (fieldRd w) (fieldRa w))) ∧
    (∀ w, bits w 15 11 = 0b10110 → decode w = .ok (.nand (fieldRd w) (fieldRa w) (fieldRb w))) ∧
    (∀ w, bits w 15 11 = 0b10111 → decode w = .ok (.nor (fieldRd w) (fieldRa w) (fieldRb w)))

/-- LSL, LSR, ASR (R141, R143 to R145) as arithmetic on the source: times 2^imm4 modulo 65536, the
floor of the unsigned quotient, the floor of the signed quotient modulo 65536; no flag is written.
That decode takes imm4 from bits 3:0 is R88, the spec's own decision D16 (log 18). -/
def Obligations.ShiftResults : Prop :=
  ∀ (s : State) (rd ra : Reg) (k : Nat), k < 16 → s.readable (.reg ra) = true →
    let a := s.reg ra
    Completes (.lsl rd ra k) s [rd] [] false none
      (fun t => (t.reg rd).toNat = a.toNat * 2 ^ k % 65536 ∧ InSequence s t) ∧
    Completes (.lsr rd ra k) s [rd] [] false none
      (fun t => (t.reg rd).toNat = a.toNat / 2 ^ k ∧ InSequence s t) ∧
    Completes (.asr rd ra k) s [rd] [] false none
      (fun t => ((t.reg rd).toNat : Int) = a.toInt / (2 : Int) ^ k % 65536 ∧ InSequence s t) ∧
    (∀ w, bits w 15 11 = 0b11111 → decode w = .ok (.lsl (fieldRd w) (fieldRa w) (fieldImm4 w))) ∧
    (∀ w, bits w 15 11 = 0b11101 → decode w = .ok (.lsr (fieldRd w) (fieldRa w) (fieldImm4 w))) ∧
    (∀ w, bits w 15 11 = 0b11100 → decode w = .ok (.asr (fieldRd w) (fieldRa w) (fieldImm4 w)))

/-! ### Byte loads, data transfer -/

/-- LUI, LLI (R162, R163; that the other byte is kept is the spec's own decision D22): one byte of
Rd is replaced, the other neither read nor changed; nothing is read, so they complete from every
state. -/
def Obligations.ByteLoadResults : Prop :=
  ∀ (s : State) (rd : Reg) (k : Nat), k < 256 →
    Completes (.lui rd k) s [rd] [] false none (fun t =>
      (t.reg rd).toNat = k * 256 + (s.reg rd).toNat % 256 ∧
      t.written.regs.get rd = ⟨true, (s.written.regs.get rd).lower⟩ ∧ InSequence s t) ∧
    Completes (.lli rd k) s [rd] [] false none (fun t =>
      (t.reg rd).toNat = (s.reg rd).toNat / 256 * 256 + k ∧
      t.written.regs.get rd = ⟨(s.written.regs.get rd).upper, true⟩ ∧ InSequence s t) ∧
    (∀ w, bits w 15 11 = 0b10100 → decode w = .ok (.lui (fieldRd w) (fieldImm8 w))) ∧
    (∀ w, bits w 15 11 = 0b10101 → decode w = .ok (.lli (fieldRd w) (fieldImm8 w)))

/-- LUI and LLI on one register, in either order, give it that constant and make it readable,
whatever it held and whether or not it had been written (R23, R162, R163). It rests on the spec's
own decision D22 that each keeps the other byte (log 19). -/
def Obligations.LuiAndLliLoadAConstant : Prop :=
  ∀ (s : State) (rd : Reg) (hi lo : Nat), hi < 256 → lo < 256 →
    (∃ t u, exec (.lui rd hi) s = .next t ∧ exec (.lli rd lo) t = .next u ∧
      (u.reg rd).toNat = hi * 256 + lo ∧ u.readable (.reg rd) = true) ∧
    (∃ t u, exec (.lli rd lo) s = .next t ∧ exec (.lui rd hi) t = .next u ∧
      (u.reg rd).toNat = hi * 256 + lo ∧ u.readable (.reg rd) = true)

/-- LDW (R170, R172): the address is base plus extended offset modulo 65536, formed from the old
value of Ra, and the word written there is loaded. The order of the faults, Ra, then out of range,
then unwritten, is R213's, the spec's own decision D24 (log 28); that an address of more than
ADDR_WIDTH bits is out of range is the model's choice (log 31). What a load of an unwritten word
draws is UnwrittenWordsFaultOrDraw. -/
def Obligations.LoadResult : Prop :=
  ∀ (s : State) (rd ra : Reg) (k : Nat),
    let a : Word := s.reg ra + extImm5 s.cfg.imm5Mem k
    (s.readable (.reg ra) = false → exec (.ldw rd ra k) s = .fault (.unwrittenRead (.reg ra))) ∧
    (s.readable (.reg ra) = true →
      (s.dataWords ≤ a.toNat → exec (.ldw rd ra k) s = .fault (.memoryOutOfRange a .data)) ∧
      (a.toNat < s.dataWords → s.textClash a = false →
        (s.mem.lookup a.toNat = none → s.cfg.unwrittenRead = .fault →
          exec (.ldw rd ra k) s = .fault (.unwrittenRead (.memWord a))) ∧
        (∀ w, s.mem.lookup a.toNat = some w →
          Completes (.ldw rd ra k) s [rd] [] false none
            (fun t => t.reg rd = w ∧ InSequence s t)))) ∧
    (∀ w, bits w 15 11 = 0b00000 → decode w = .ok (.ldw (fieldRd w) (fieldRa w) (fieldImm5 w)))

/-- STW (R171, R172): Rd is stored at base plus extended offset modulo 65536; no register and no
flag is written, and no other word of memory. The order of the faults and the refusal, Ra before Rd,
is R213's, the spec's own decision D24 (log 28); out of range before program text is the model's
choice (log 35), and so is that an address of more than ADDR_WIDTH bits is out of range (log 31). -/
def Obligations.StoreResult : Prop :=
  ∀ (s : State) (rd ra : Reg) (k : Nat),
    let a : Word := s.reg ra + extImm5 s.cfg.imm5Mem k
    (s.readable (.reg ra) = false → exec (.stw rd ra k) s = .fault (.unwrittenRead (.reg ra))) ∧
    (s.readable (.reg ra) = true → s.readable (.reg rd) = false →
      exec (.stw rd ra k) s = .fault (.unwrittenRead (.reg rd))) ∧
    (s.readable (.reg ra) = true → s.readable (.reg rd) = true →
      (s.dataWords ≤ a.toNat → exec (.stw rd ra k) s = .fault (.memoryOutOfRange a .data)) ∧
      (a.toNat < s.dataWords →
        (s.textClash a = true → exec (.stw rd ra k) s = .refused (.storeToProgramText a)) ∧
        (s.textClash a = false → Completes (.stw rd ra k) s [] [] false (some a)
          (fun t => t.mem.lookup a.toNat = some (s.reg rd) ∧ InSequence s t)))) ∧
    (∀ w, bits w 15 11 = 0b01000 → decode w = .ok (.stw (fieldRd w) (fieldRa w) (fieldImm5 w)))

/-- A load of the word an STW has just stored returns that word, through any base and offset that
give its address (R60, the spec's own decision D29). -/
def Obligations.LoadReturnsTheLastStore : Prop :=
  ∀ (s t : State) (rs ra rd rb : Reg) (k j : Nat), exec (.stw rs ra k) s = .next t →
    t.readable (.reg rb) = true →
    t.dataAddress (t.reg rb) j = s.dataAddress (s.reg ra) k →
    ∃ u, exec (.ldw rd rb j) t = .next u ∧ u.reg rd = s.reg rs ∧ u.mem = t.mem

/-! ### Control transfer -/

/-- BR, BWL, RET, JMP (R180, R181, R186, R187, R188): where PC goes, and what BWL saves in LR,
modulo 2^PC_WIDTH; none writes a general register, a flag or memory. -/
def Obligations.UnconditionalTransfers : Prop :=
  ∀ (s : State) (ra : Reg) (k : Nat) (off : Int), s.cfg.pcWidth ≤ 16 →
    let modulus : Int := 2 ^ s.cfg.pcWidth
    Completes (.br off) s [] [] false none
      (fun t => (t.pc.toNat : Int) = (s.pc.toNat + off) % modulus) ∧
    Completes (.bwl off) s [] [] true none
      (fun t => (t.pc.toNat : Int) = (s.pc.toNat + off) % modulus ∧
        (t.lr.toNat : Int) = (s.pc.toNat + 1) % modulus) ∧
    (s.readable .lr = true → s.lr.toNat < 2 ^ s.cfg.pcWidth →
      Completes .ret s [] [] false none (fun t => t.pc = s.lr)) ∧
    (s.readable .lr = false → exec .ret s = .fault (.unwrittenRead .lr)) ∧
    (s.readable (.reg ra) = true →
      Completes (.jmp ra k) s [] [] false none (fun t => (t.pc.toNat : Int) =
        ((s.reg ra).toNat + (extImm5 s.cfg.imm5Jmp k).toNat) % modulus)) ∧
    (s.readable (.reg ra) = false → exec (.jmp ra k) s = .fault (.unwrittenRead (.reg ra))) ∧
    (∀ w, bits w 15 8 = 0xF0 → decode w = .ok (.br (fieldOffset w))) ∧
    (∀ w, bits w 15 8 = 0xF3 → decode w = .ok (.bwl (fieldOffset w))) ∧
    (∀ w, bits w 15 8 = 0xF2 → decode w = .ok .ret) ∧
    (∀ w, bits w 15 8 = 0xF1 → decode w = .ok (.jmp (fieldRa w) (fieldImm5 w)))

/-- BNE, BE, BLT, BGE (R180, R182 to R185): taken exactly on their condition, from the branch's own
address; otherwise PC advances by one. What the conditions say of the flags a CMP of `a` and `b`
leaves, and of those a logic instruction leaves. -/
def Obligations.ConditionalTransfers : Prop :=
  ∀ (s : State) (off : Int), s.cfg.pcWidth ≤ 16 →
    let modulus : Int := 2 ^ s.cfg.pcWidth
    let goes := fun (i : Instr) (taken : Prop) => Completes i s [] [] false none (fun t =>
      (taken → (t.pc.toNat : Int) = (s.pc.toNat + off) % modulus) ∧
      (¬ taken → (t.pc.toNat : Int) = (s.pc.toNat + 1) % modulus))
    (s.readable (.flag .z) = true →
      goes (.bne off) (s.flags.z = false) ∧ goes (.be off) (s.flags.z = true)) ∧
    (s.readable (.flag .n) = true → s.readable (.flag .v) = true →
      goes (.blt off) (s.flags.n ≠ s.flags.v) ∧ goes (.bge off) (s.flags.n = s.flags.v)) ∧
    (∀ a b : Word,
      let f := (subFlags s.cfg.subCarry a b true).flags
      (f.z = false ↔ a ≠ b) ∧ (f.n ≠ f.v ↔ a.toInt < b.toInt) ∧
      (f.n = f.v ↔ b.toInt ≤ a.toInt)) ∧
    (∀ (rd : Reg) (r : Word), (s.setLogic rd r).flags.z = false ↔ r ≠ 0#16) ∧
    (∀ w, bits w 15 8 = 0xF6 → decode w = .ok (.bne (fieldOffset w))) ∧
    (∀ w, bits w 15 8 = 0xF7 → decode w = .ok (.be (fieldOffset w))) ∧
    (∀ w, bits w 15 8 = 0xF4 → decode w = .ok (.blt (fieldOffset w))) ∧
    (∀ w, bits w 15 8 = 0xF5 → decode w = .ok (.bge (fieldOffset w)))

/-- BWL then, from any later state in which LR still holds what BWL saved, RET: execution resumes at
the instruction after the BWL (R25, R186, R187). -/
def Obligations.ReturnGoesAfterTheCall : Prop :=
  ∀ (s : State) (off : Int), s.cfg.pcWidth ≤ 16 → ∃ t, exec (.bwl off) s = .next t ∧
    ∀ u : State, u.cfg = t.cfg → u.lr = t.lr → u.written.lr = t.written.lr →
      ∃ v, exec .ret u = .next v ∧ v.pc.toNat = (s.pc.toNat + 1) % 2 ^ s.cfg.pcWidth ∧ v.lr = u.lr

/-- When PC is the address of the word 0xF000 no further step changes any state (R233, the spec's
own decision D28). -/
def Obligations.EndOfRunRepeatsForEver : Prop :=
  ∀ s : State, s.pc.toNat < 2 ^ s.cfg.pcWidth → s.ended = true → step s = .next s

/-- A run that ends does so in a state on arrival at the word 0xF000 that keeps the invariant, in
which every further step leaves everything as it is, and that more fuel does not change (R233). -/
def Obligations.RunsEndInAFixedPoint : Prop :=
  ∀ (k : Nat) (s t : State), s.Inv → endsIn k s = some t →
    t.ended = true ∧ t.Inv ∧ step t = .next t ∧ ∀ j : Nat, endsIn (k + j) s = some t

/-! ### Stack -/

/-- PUSH Ra, PUSH LR (R201, R202): the old value is stored at R7 under STACK_ORDER = table and at R7
- 1 under prose, R7 decreases by one, modulo 65536. The order of the faults and the refusal, R7
before Ra or LR, is R213's, the spec's own decision D24 (log 28); out of range before program text
is the model's choice (log 35), and so is that an address of more than ADDR_WIDTH bits is out of
range (log 31). -/
def Obligations.PushResults : Prop :=
  ∀ (s : State) (ra : Reg),
    let sp := s.reg .r7
    let a : Word := match s.cfg.stackOrder with
      | .table => sp
      | .prose => sp - 1#16
    let pushes := fun (i : Instr) (d : Word) =>
      (s.dataWords ≤ a.toNat → exec i s = .fault (.memoryOutOfRange a .data)) ∧
      (a.toNat < s.dataWords → s.textClash a = true →
        exec i s = .refused (.storeToProgramText a)) ∧
      (a.toNat < s.dataWords → s.textClash a = false →
        Completes i s [.r7] [] false (some a) (fun t => t.mem.lookup a.toNat = some d ∧
          t.reg .r7 = sp - 1#16 ∧ InSequence s t))
    (s.readable (.reg .r7) = false → exec (.push ra) s = .fault (.unwrittenRead (.reg .r7)) ∧
      exec .pushLr s = .fault (.unwrittenRead (.reg .r7))) ∧
    (s.readable (.reg .r7) = true →
      (s.readable (.reg ra) = false → exec (.push ra) s = .fault (.unwrittenRead (.reg ra))) ∧
      (s.readable (.reg ra) = true → pushes (.push ra) (s.reg ra)) ∧
      (s.readable .lr = false → exec .pushLr s = .fault (.unwrittenRead .lr)) ∧
      (s.readable .lr = true → pushes .pushLr s.lr)) ∧
    (∀ w, bits w 15 10 = 0b010010 → decode w = .ok (.push (fieldRa w))) ∧
    (∀ w, bits w 15 10 = 0b010011 → decode w = .ok .pushLr)

/-- POP Ra, POP LR (R203, R204; that POP Ra writes no flag is the spec's own decision D36, log 17):
the word at R7 + 1 under STACK_ORDER = table, at R7 under prose, is loaded, and R7 increases by one,
modulo 65536, unless it is the register loaded; memory is left as it was. The order of the faults is
R213's, the spec's own decision D24 (log 28); that an address of more than ADDR_WIDTH bits is out of
range is the model's choice (log 31). What POP draws from an unwritten word is
PopsOfUnwrittenWordsFaultOrDraw. -/
def Obligations.PopResults : Prop :=
  ∀ (s : State) (ra : Reg),
    let sp := s.reg .r7
    let a : Word := match s.cfg.stackOrder with
      | .table => sp + 1#16
      | .prose => sp
    let stops := fun (i : Instr) =>
      (s.dataWords ≤ a.toNat → exec i s = .fault (.memoryOutOfRange a .data)) ∧
      (a.toNat < s.dataWords → s.textClash a = false → s.mem.lookup a.toNat = none →
        s.cfg.unwrittenRead = .fault → exec i s = .fault (.unwrittenRead (.memWord a)))
    (s.readable (.reg .r7) = false → exec (.pop ra) s = .fault (.unwrittenRead (.reg .r7)) ∧
      exec .popLr s = .fault (.unwrittenRead (.reg .r7))) ∧
    (s.readable (.reg .r7) = true → stops (.pop ra) ∧ stops .popLr ∧
      (∀ w, a.toNat < s.dataWords → s.textClash a = false → s.mem.lookup a.toNat = some w →
        Completes (.pop ra) s [.r7, ra] [] false none (fun t => t.reg ra = w ∧
          (ra ≠ .r7 → t.reg .r7 = sp + 1#16) ∧ InSequence s t) ∧
        Completes .popLr s [.r7] [] true none (fun t => t.lr = s.truncPc w ∧
          t.reg .r7 = sp + 1#16 ∧ InSequence s t))) ∧
    (∀ w, bits w 15 10 = 0b000010 → decode w = .ok (.pop (fieldRa w))) ∧
    (∀ w, bits w 15 10 = 0b000011 → decode w = .ok .popLr)

/-- R205 (the spec's own decision D33): a PUSH followed at once by a POP of the same kind restores
R7 and returns the pushed value, under either STACK_ORDER. -/
def Obligations.PopUndoesPush : Prop :=
  ∀ (s t : State) (ra rd : Reg),
    (exec (.push ra) s = .next t → ∃ u, exec (.pop rd) t = .next u ∧ u.reg rd = s.reg ra ∧
      (rd ≠ .r7 → u.reg .r7 = s.reg .r7)) ∧
    (exec .pushLr s = .next t → s.lr.toNat < 2 ^ s.cfg.pcWidth →
      ∃ u, exec .popLr t = .next u ∧ u.lr = s.lr ∧ u.reg .r7 = s.reg .r7)

/-- R27: BWL, then PUSH LR, then POP Ra gives a program an instruction address as data: the address
after the BWL. -/
def Obligations.ReturnAddressAsData : Prop :=
  ∀ (s : State) (off : Int) (ra : Reg), s.cfg.pcWidth ≤ 16 → s.readable (.reg .r7) = true →
    (s.pushAddress (s.reg .r7)).toNat < s.dataWords →
    s.textClash (s.pushAddress (s.reg .r7)) = false →
    ∃ t u v, exec (.bwl off) s = .next t ∧ exec .pushLr t = .next u ∧
      exec (.pop ra) u = .next v ∧ (v.reg ra).toNat = (s.pc.toNat + 1) % 2 ^ s.cfg.pcWidth

/-- POP Ra and POP LR of an installed word nothing has written, or of a program address while
MEM_ORG is kept open, fault under UNWRITTEN_READ = fault; under draw they complete: the drawn value
is what Ra, or, reduced to PC_WIDTH bits, LR holds after, R7 has moved, and an LDW of that address
draws the same value (R36 and R63, the spec's own decisions D27 and D30; one value for each address
is the model's choice, log 6). POP Ra writes no flag: the spec's own decision D36 (log 17). -/
def Obligations.PopsOfUnwrittenWordsFaultOrDraw : Prop :=
  ∀ (s : State) (ra : Reg),
    let sp := s.reg .r7
    let a : Word := match s.cfg.stackOrder with
      | .table => sp + 1#16
      | .prose => sp
    s.readable (.reg .r7) = true → a.toNat < s.dataWords →
    (s.mem.lookup a.toNat = none ∨ s.textClash a = true) →
    (s.cfg.unwrittenRead = .fault →
      exec (.pop ra) s = .fault (.unwrittenRead (.memWord a)) ∧
      exec .popLr s = .fault (.unwrittenRead (.memWord a))) ∧
    (s.cfg.unwrittenRead = .draw → ∃ w : Word,
      Completes (.pop ra) s [.r7, ra] [] false none (fun t => t.reg ra = w ∧
        (ra ≠ .r7 → t.reg .r7 = sp + 1#16) ∧ InSequence s t) ∧
      Completes .popLr s [.r7] [] true none (fun t => t.lr = s.truncPc w ∧
        t.reg .r7 = sp + 1#16 ∧ InSequence s t) ∧
      ∀ (rd rb : Reg) (k : Nat), s.dataAddress (s.reg rb) k = a →
        Completes (.ldw rd rb k) s [rd] [] false none (fun t => t.reg rd = w ∧ InSequence s t))

/-- A fetch of an installed word that nothing supplied faults under UNWRITTEN_READ = fault; under
draw it reads some word, the step does with it what it does with any word, and fetching from that
address again, while nothing has been written there, reads the same word (R36, R211, the spec's own
decision D27; that R36 covers a fetch is the model's reading, log 10). While MEM_ORG is kept open,
what is written there includes the data word of that address. -/
def Obligations.UnsuppliedTextFaultsOrDraws : Prop :=
  ∀ s : State, s.pc.toNat < s.fetchWords → s.imem.lookup s.pc.toNat = none →
    (s.cfg.memOrg = .unified → s.mem.lookup s.pc.toNat = none) →
    (s.cfg.unwrittenRead = .fault → step s = .fault (.unwrittenRead (.text s.pc))) ∧
    (s.cfg.unwrittenRead = .draw → ∃ w : Word, s.fetchedWord = some w ∧
      (∀ u, decode w = .error (.unassignedOpcode u) →
        step s = .fault (.illegalInstruction u s.pc)) ∧
      (∀ i, decode w = .ok i →
        (s.cfg.ignoredBits = .ignore ∨ w &&& ignoredMask i = 0#16 → step s = exec i s) ∧
        (s.cfg.ignoredBits = .refuse → w &&& ignoredMask i ≠ 0#16 →
          step s = .refused (.nonCanonicalEncoding w))) ∧
      ∀ t : State, t.cfg = s.cfg → t.imem = s.imem → t.pc = s.pc →
        (s.cfg.memOrg = .separate ∨ t.mem.lookup s.pc.toNat = s.mem.lookup s.pc.toNat) →
        t.fetchedWord = some w)
end

