-- ==== Sys2Proof/Laws/Decode.lean ====
section
/-! SUPPORT. The fields of an encoded word are what was put into them. -/

namespace Sys2Proof

theorem Reg.num_lt (r : Reg) : r.num < 8 := by cases r <;> decide

@[simp] theorem Reg.ofNum_num (r : Reg) : Reg.ofNum r.num = r := by cases r <;> rfl

theorem signed8_offsetByte (off : Int) (h : -128 ≤ off ∧ off ≤ 127) :
    signed8 (offsetByte off) = off := by
  unfold signed8 offsetByte
  split <;> omega

theorem offsetByte_lt (off : Int) : offsetByte off < 256 := by
  unfold offsetByte; omega

/-- Format A1 (R81). -/
theorem bits_wordA1 {op rd ra rb : Nat} (ho : op < 32) (hd : rd < 8) (ha : ra < 8) (hb : rb < 8) :
    bits (wordA1 op rd ra rb) 15 11 = op ∧ bits (wordA1 op rd ra rb) 10 8 = rd ∧
    bits (wordA1 op rd ra rb) 7 5 = ra ∧ bits (wordA1 op rd ra rb) 4 2 = rb := by
  simp only [bits, wordA1, BitVec.toNat_ofNat]; omega

/-- Formats A2, C and D2 (R82, R84, R86). -/
theorem bits_wordA2 {op rd ra k : Nat} (ho : op < 32) (hd : rd < 8) (ha : ra < 8) (hk : k < 32) :
    bits (wordA2 op rd ra k) 15 11 = op ∧ bits (wordA2 op rd ra k) 10 8 = rd ∧
    bits (wordA2 op rd ra k) 7 5 = ra ∧ bits (wordA2 op rd ra k) 4 0 = k := by
  simp only [bits, wordA2, BitVec.toNat_ofNat]; omega

/-- The shift count of format A2 (R88). -/
theorem bits_wordA2_imm4 {op rd ra k : Nat} (hk : k < 16) :
    bits (wordA2 op rd ra k) 3 0 = k := by
  simp only [bits, wordA2, BitVec.toNat_ofNat]; omega

/-- Formats B and D1 (R83, R85). -/
theorem bits_wordB {op rd k : Nat} (ho : op < 32) (hd : rd < 8) (hk : k < 256) :
    bits (wordB op rd k) 15 11 = op ∧ bits (wordB op rd k) 10 8 = rd ∧
    bits (wordB op rd k) 7 0 = k := by
  simp only [bits, wordB, BitVec.toNat_ofNat]; omega

/-- Format E (R87). -/
theorem bits_wordE {op l ra : Nat} (ho : op < 32) (hl : l < 2) (ha : ra < 8) :
    bits (wordE op l ra) 15 11 = op ∧ bits (wordE op l ra) 10 10 = l ∧
    bits (wordE op l ra) 7 5 = ra := by
  simp only [bits, wordE, BitVec.toNat_ofNat]; omega

/-- A field of `hi + 1 - lo` bits holds no larger number (R8). -/
theorem bits_lt (w : Word) (hi lo : Nat) : bits w hi lo < 2 ^ (hi + 1 - lo) :=
  Nat.mod_lt _ (Nat.two_pow_pos _)

theorem fieldImm4_lt (w : Word) : fieldImm4 w < 16 := bits_lt w 3 0
theorem fieldImm5_lt (w : Word) : fieldImm5 w < 32 := bits_lt w 4 0
theorem fieldImm8_lt (w : Word) : fieldImm8 w < 256 := bits_lt w 7 0

/-- The field of a relative branch holds -128 to 127 (R92). -/
theorem fieldOffset_range (w : Word) : -128 ≤ fieldOffset w ∧ fieldOffset w ≤ 127 := by
  have h := fieldImm8_lt w
  unfold fieldOffset signed8
  by_cases hk : fieldImm8 w < 128
  · rw [if_pos hk]; omega
  · rw [if_neg hk]; omega

/-- A row of the opcode table has 16 bits. -/
@[simp] theorem tableWord_16 (w : Word) : tableWord 16 w.toNat = w := by
  apply BitVec.eq_of_toNat_eq
  have := w.isLt
  simp only [tableWord, BitVec.toNat_ofNat]
  omega

end Sys2Proof
end

