-- ==== Sys2Proof/Laws/Memory.lean ====
section
/-! SUPPORT. The laws of memory: read after write, and that every operation keeps the canonical form
and the installed range. -/

namespace Sys2Proof.Machine.Memory

@[simp] theorem lookup_nil (a : Nat) : Memory.lookup [] a = none := rfl

theorem lookup_write (m : Memory) (a b : Nat) (w : Word) :
    (m.write a w).lookup b = if b = a then some w else m.lookup b := by
  induction m with
  | nil => simp [write, lookup]
  | cons c rest ih =>
    obtain ⟨k, u⟩ := c
    by_cases h1 : a < k
    · simp [write, lookup, h1]
    · by_cases h2 : a = k
      · subst h2
        simp only [write, lookup, Nat.lt_irrefl, if_false, if_true]
        split <;> rfl
      · simp only [write, lookup, h1, h2, if_false, ih]
        by_cases h3 : b = k
        · subst h3; simp [Ne.symm h2]
        · simp [h3]

/-- A read after a write to the same address gives the word written (R60). -/
@[simp] theorem lookup_write_same (m : Memory) (a : Nat) (w : Word) :
    (m.write a w).lookup a = some w := by simp [lookup_write]

/-- A write leaves every other word alone (R52). -/
@[simp] theorem lookup_write_of_ne (m : Memory) {a b : Nat} (w : Word) (h : b ≠ a) :
    (m.write a w).lookup b = m.lookup b := by simp [lookup_write, h]

theorem risesFrom_mono (m : Memory) {lo lo' : Nat} (h : lo' ≤ lo) (hm : m.risesFrom lo = true) :
    m.risesFrom lo' = true := by
  cases m with
  | nil => rfl
  | cons c rest =>
    simp only [risesFrom, Bool.and_eq_true, decide_eq_true_eq] at hm ⊢
    exact ⟨by omega, hm.2⟩

theorem risesFrom_write (m : Memory) (a : Nat) (w : Word) (lo : Nat) (ha : lo ≤ a)
    (hm : m.risesFrom lo = true) : (m.write a w).risesFrom lo = true := by
  induction m generalizing lo with
  | nil => simp [write, risesFrom, ha]
  | cons c rest ih =>
    obtain ⟨k, u⟩ := c
    simp only [risesFrom, Bool.and_eq_true, decide_eq_true_eq] at hm
    by_cases h1 : a < k
    · simp only [write, h1, if_true, risesFrom, Bool.and_eq_true, decide_eq_true_eq]
      exact ⟨ha, by omega, hm.2⟩
    · by_cases h2 : a = k
      · subst h2
        simp only [write, Nat.lt_irrefl, if_false, if_true, risesFrom, Bool.and_eq_true,
          decide_eq_true_eq]
        exact ⟨ha, hm.2⟩
      · simp only [write, h1, h2, if_false, risesFrom, Bool.and_eq_true, decide_eq_true_eq]
        exact ⟨hm.1, ih (k + 1) (by omega) hm.2⟩

/-- A write keeps the canonical form. -/
theorem wf_write (m : Memory) (a : Nat) (w : Word) (hm : m.wf = true) : (m.write a w).wf = true :=
  risesFrom_write m a w 0 (Nat.zero_le a) hm

/-- A write to an installed address lists installed addresses only. -/
theorem below_write (m : Memory) (limit a : Nat) (w : Word) (ha : a < limit)
    (hm : m.below limit = true) : (m.write a w).below limit = true := by
  induction m with
  | nil => simp [write, below, ha]
  | cons c rest ih =>
    obtain ⟨k, u⟩ := c
    simp only [below, Bool.and_eq_true, decide_eq_true_eq] at hm
    by_cases h1 : a < k
    · simp [write, h1, below, ha, hm]
    · by_cases h2 : a = k
      · subst h2; simp [write, below, ha, hm]
      · simp [write, h1, h2, below, hm, ih]

theorem below_mono (m : Memory) {n n' : Nat} (h : n ≤ n') (hm : m.below n = true) :
    m.below n' = true := by
  induction m with
  | nil => rfl
  | cons c rest ih =>
    simp only [below, Bool.and_eq_true, decide_eq_true_eq] at hm ⊢
    exact ⟨by omega, ih hm.2⟩

/-- Loading a program keeps the canonical form. -/
theorem wf_load (ws : List Word) (m : Memory) (base : Nat) (hm : m.wf = true) :
    (m.load base ws).wf = true := by
  induction ws generalizing m base with
  | nil => exact hm
  | cons w rest ih => exact ih _ _ (wf_write m base w hm)

/-- Loading data words keeps the canonical form. -/
theorem wf_loadCells (cells : List (Nat × Word)) (m : Memory) (hm : m.wf = true) :
    (m.loadCells cells).wf = true := by
  induction cells generalizing m with
  | nil => exact hm
  | cons c rest ih => exact ih _ (wf_write m c.1 c.2 hm)

/-- A program loaded at `base` has its words at `base`, `base + 1` and so on, and leaves every other
address alone. -/
theorem lookup_load (ws : List Word) (m : Memory) (base a : Nat) :
    (m.load base ws).lookup a =
      if base ≤ a ∧ a < base + ws.length then ws[a - base]? else m.lookup a := by
  induction ws generalizing m base with
  | nil => simp [load]
  | cons w rest ih =>
    rw [load, ih, lookup_write]
    by_cases h1 : a = base
    · subst h1; simp
    · by_cases h2 : base ≤ a ∧ a < base + (w :: rest).length
      · rw [if_pos h2, if_pos (by simp at h2; omega)]
        have : a - base = (a - (base + 1)) + 1 := by omega
        rw [this, List.getElem?_cons_succ]
      · rw [if_neg h2, if_neg (by simp at h2; omega), if_neg h1]

/-- A loaded program lists installed addresses only if it fits. -/
theorem below_load (ws : List Word) (m : Memory) (base limit : Nat) (hm : m.below limit = true)
    (h : base + ws.length ≤ limit) : (m.load base ws).below limit = true := by
  induction ws generalizing m base with
  | nil => exact hm
  | cons w rest ih =>
    simp only [List.length_cons] at h
    exact ih _ _ (below_write m limit base w (by omega) hm) (by omega)

end Sys2Proof.Machine.Memory
end

