-- ==== Sys2Proof/Laws/State.lean ====
section
/-! SUPPORT. One lemma per field per update of the state, and the read-after-write laws of the
register bank and the flags. -/

namespace Sys2Proof.Machine

namespace Bank

@[simp] theorem get_set_same {α : Type} (b : Bank α) (r : Reg) (a : α) : (b.set r a).get r = a := by
  cases r <;> rfl

theorem get_set {α : Type} (b : Bank α) (r q : Reg) (a : α) :
    (b.set r a).get q = if q = r then a else b.get q := by
  cases r <;> cases q <;> rfl

@[simp] theorem get_set_of_ne {α : Type} (b : Bank α) {r q : Reg} (a : α) (h : q ≠ r) :
    (b.set r a).get q = b.get q := by
  rw [get_set, if_neg h]

@[simp] theorem get_all {α : Type} (a : α) (r : Reg) : (Bank.all a).get r = a := by
  cases r <;> rfl

@[simp] theorem set_set_same {α : Type} (b : Bank α) (r : Reg) (a a' : α) :
    (b.set r a).set r a' = b.set r a' := by
  cases r <;> rfl

@[simp] theorem set_get_self {α : Type} (b : Bank α) (r : Reg) : b.set r (b.get r) = b := by
  cases r <;> rfl

end Bank

namespace Flags

@[simp] theorem get_set_same (f : Flags) (k : Flag) (b : Bool) : (f.set k b).get k = b := by
  cases k <;> rfl

theorem get_set (f : Flags) (k q : Flag) (b : Bool) :
    (f.set k b).get q = if q = k then b else f.get q := by
  cases k <;> cases q <;> rfl

@[simp] theorem get_set_of_ne (f : Flags) {k q : Flag} (b : Bool) (h : q ≠ k) :
    (f.set k b).get q = f.get q := by
  rw [get_set, if_neg h]

end Flags

namespace State

@[simp] theorem setReg_cfg (s : State) (r : Reg) (w : Word) : (s.setReg r w).cfg = s.cfg := rfl
@[simp] theorem setReg_regs (s : State) (r : Reg) (w : Word) :
    (s.setReg r w).regs =
      s.regs.set r w := rfl
@[simp] theorem setReg_pc (s : State) (r : Reg) (w : Word) : (s.setReg r w).pc = s.pc := rfl
@[simp] theorem setReg_lr (s : State) (r : Reg) (w : Word) : (s.setReg r w).lr = s.lr := rfl
@[simp] theorem setReg_flags (s : State) (r : Reg) (w : Word) :
    (s.setReg r w).flags =
      s.flags := rfl
@[simp] theorem setReg_written (s : State) (r : Reg) (w : Word) :
    (s.setReg r w).written =
      { s.written with regs := s.written.regs.set r ⟨true, true⟩ } := rfl
@[simp] theorem setReg_imem (s : State) (r : Reg) (w : Word) : (s.setReg r w).imem = s.imem := rfl
@[simp] theorem setReg_mem (s : State) (r : Reg) (w : Word) : (s.setReg r w).mem = s.mem := rfl
@[simp] theorem setReg_draws (s : State) (r : Reg) (w : Word) :
    (s.setReg r w).draws =
      s.draws := rfl

@[simp] theorem setUpper_cfg (s : State) (r : Reg) (b : Byte) : (s.setUpper r b).cfg = s.cfg := rfl
@[simp] theorem setUpper_regs (s : State) (r : Reg) (b : Byte) :
    (s.setUpper r b).regs =
      s.regs.set r (b ++ (s.regs.get r).extractLsb' 0 8 : BitVec (8 + 8)) := rfl
@[simp] theorem setUpper_pc (s : State) (r : Reg) (b : Byte) : (s.setUpper r b).pc = s.pc := rfl
@[simp] theorem setUpper_lr (s : State) (r : Reg) (b : Byte) : (s.setUpper r b).lr = s.lr := rfl
@[simp] theorem setUpper_flags (s : State) (r : Reg) (b : Byte) :
    (s.setUpper r b).flags =
      s.flags := rfl
@[simp] theorem setUpper_written (s : State) (r : Reg) (b : Byte) :
    (s.setUpper r b).written =
      { s.written with regs := s.written.regs.set r { s.written.regs.get r with upper := true } } := rfl
@[simp] theorem setUpper_imem (s : State) (r : Reg) (b : Byte) :
    (s.setUpper r b).imem =
      s.imem := rfl
@[simp] theorem setUpper_mem (s : State) (r : Reg) (b : Byte) : (s.setUpper r b).mem = s.mem := rfl
@[simp] theorem setUpper_draws (s : State) (r : Reg) (b : Byte) :
    (s.setUpper r b).draws =
      s.draws := rfl

@[simp] theorem setLower_cfg (s : State) (r : Reg) (b : Byte) : (s.setLower r b).cfg = s.cfg := rfl
@[simp] theorem setLower_regs (s : State) (r : Reg) (b : Byte) :
    (s.setLower r b).regs =
      s.regs.set r ((s.regs.get r).extractLsb' 8 8 ++ b : BitVec (8 + 8)) := rfl
@[simp] theorem setLower_pc (s : State) (r : Reg) (b : Byte) : (s.setLower r b).pc = s.pc := rfl
@[simp] theorem setLower_lr (s : State) (r : Reg) (b : Byte) : (s.setLower r b).lr = s.lr := rfl
@[simp] theorem setLower_flags (s : State) (r : Reg) (b : Byte) :
    (s.setLower r b).flags =
      s.flags := rfl
@[simp] theorem setLower_written (s : State) (r : Reg) (b : Byte) :
    (s.setLower r b).written =
      { s.written with regs := s.written.regs.set r { s.written.regs.get r with lower := true } } := rfl
@[simp] theorem setLower_imem (s : State) (r : Reg) (b : Byte) :
    (s.setLower r b).imem =
      s.imem := rfl
@[simp] theorem setLower_mem (s : State) (r : Reg) (b : Byte) : (s.setLower r b).mem = s.mem := rfl
@[simp] theorem setLower_draws (s : State) (r : Reg) (b : Byte) :
    (s.setLower r b).draws =
      s.draws := rfl

@[simp] theorem setFlags_cfg (s : State) (f : Flags) : (s.setFlags f).cfg = s.cfg := rfl
@[simp] theorem setFlags_regs (s : State) (f : Flags) : (s.setFlags f).regs = s.regs := rfl
@[simp] theorem setFlags_pc (s : State) (f : Flags) : (s.setFlags f).pc = s.pc := rfl
@[simp] theorem setFlags_lr (s : State) (f : Flags) : (s.setFlags f).lr = s.lr := rfl
@[simp] theorem setFlags_flags (s : State) (f : Flags) : (s.setFlags f).flags = f := rfl
@[simp] theorem setFlags_written (s : State) (f : Flags) :
    (s.setFlags f).written =
      { s.written with flags := ⟨true, true, true, true⟩ } := rfl
@[simp] theorem setFlags_imem (s : State) (f : Flags) : (s.setFlags f).imem = s.imem := rfl
@[simp] theorem setFlags_mem (s : State) (f : Flags) : (s.setFlags f).mem = s.mem := rfl
@[simp] theorem setFlags_draws (s : State) (f : Flags) : (s.setFlags f).draws = s.draws := rfl

@[simp] theorem setZ_cfg (s : State) (b : Bool) : (s.setZ b).cfg = s.cfg := rfl
@[simp] theorem setZ_regs (s : State) (b : Bool) : (s.setZ b).regs = s.regs := rfl
@[simp] theorem setZ_pc (s : State) (b : Bool) : (s.setZ b).pc = s.pc := rfl
@[simp] theorem setZ_lr (s : State) (b : Bool) : (s.setZ b).lr = s.lr := rfl
@[simp] theorem setZ_flags (s : State) (b : Bool) : (s.setZ b).flags = s.flags.set .z b := rfl
@[simp] theorem setZ_written (s : State) (b : Bool) :
    (s.setZ b).written =
      { s.written with flags := s.written.flags.set .z true } := rfl
@[simp] theorem setZ_imem (s : State) (b : Bool) : (s.setZ b).imem = s.imem := rfl
@[simp] theorem setZ_mem (s : State) (b : Bool) : (s.setZ b).mem = s.mem := rfl
@[simp] theorem setZ_draws (s : State) (b : Bool) : (s.setZ b).draws = s.draws := rfl

@[simp] theorem setLr_cfg (s : State) (w : Word) : (s.setLr w).cfg = s.cfg := rfl
@[simp] theorem setLr_regs (s : State) (w : Word) : (s.setLr w).regs = s.regs := rfl
@[simp] theorem setLr_pc (s : State) (w : Word) : (s.setLr w).pc = s.pc := rfl
@[simp] theorem setLr_lr (s : State) (w : Word) : (s.setLr w).lr = s.truncPc w := rfl
@[simp] theorem setLr_flags (s : State) (w : Word) : (s.setLr w).flags = s.flags := rfl
@[simp] theorem setLr_written (s : State) (w : Word) :
    (s.setLr w).written =
      { s.written with lr := true } := rfl
@[simp] theorem setLr_imem (s : State) (w : Word) : (s.setLr w).imem = s.imem := rfl
@[simp] theorem setLr_mem (s : State) (w : Word) : (s.setLr w).mem = s.mem := rfl
@[simp] theorem setLr_draws (s : State) (w : Word) : (s.setLr w).draws = s.draws := rfl

@[simp] theorem setPc_cfg (s : State) (t : Word) : (s.setPc t).cfg = s.cfg := rfl
@[simp] theorem setPc_regs (s : State) (t : Word) : (s.setPc t).regs = s.regs := rfl
@[simp] theorem setPc_pc (s : State) (t : Word) : (s.setPc t).pc = s.truncPc t := rfl
@[simp] theorem setPc_lr (s : State) (t : Word) : (s.setPc t).lr = s.lr := rfl
@[simp] theorem setPc_flags (s : State) (t : Word) : (s.setPc t).flags = s.flags := rfl
@[simp] theorem setPc_written (s : State) (t : Word) : (s.setPc t).written = s.written := rfl
@[simp] theorem setPc_imem (s : State) (t : Word) : (s.setPc t).imem = s.imem := rfl
@[simp] theorem setPc_mem (s : State) (t : Word) : (s.setPc t).mem = s.mem := rfl
@[simp] theorem setPc_draws (s : State) (t : Word) : (s.setPc t).draws = s.draws := rfl

@[simp] theorem setMem_cfg (s : State) (a w : Word) : (s.setMem a w).cfg = s.cfg := rfl
@[simp] theorem setMem_regs (s : State) (a w : Word) : (s.setMem a w).regs = s.regs := rfl
@[simp] theorem setMem_pc (s : State) (a w : Word) : (s.setMem a w).pc = s.pc := rfl
@[simp] theorem setMem_lr (s : State) (a w : Word) : (s.setMem a w).lr = s.lr := rfl
@[simp] theorem setMem_flags (s : State) (a w : Word) : (s.setMem a w).flags = s.flags := rfl
@[simp] theorem setMem_written (s : State) (a w : Word) : (s.setMem a w).written = s.written := rfl
@[simp] theorem setMem_imem (s : State) (a w : Word) : (s.setMem a w).imem = s.imem := rfl
@[simp] theorem setMem_mem (s : State) (a w : Word) :
    (s.setMem a w).mem =
      s.mem.write a.toNat w := rfl
@[simp] theorem setMem_draws (s : State) (a w : Word) : (s.setMem a w).draws = s.draws := rfl

@[simp] theorem advance_cfg (s : State) : (s.advance).cfg = s.cfg := rfl
@[simp] theorem advance_regs (s : State) : (s.advance).regs = s.regs := rfl
@[simp] theorem advance_pc (s : State) : (s.advance).pc = s.truncPc (s.pc + 1#16) := rfl
@[simp] theorem advance_lr (s : State) : (s.advance).lr = s.lr := rfl
@[simp] theorem advance_flags (s : State) : (s.advance).flags = s.flags := rfl
@[simp] theorem advance_written (s : State) : (s.advance).written = s.written := rfl
@[simp] theorem advance_imem (s : State) : (s.advance).imem = s.imem := rfl
@[simp] theorem advance_mem (s : State) : (s.advance).mem = s.mem := rfl
@[simp] theorem advance_draws (s : State) : (s.advance).draws = s.draws := rfl

@[simp] theorem reg_setReg_same (s : State) (r : Reg) (w : Word) : (s.setReg r w).reg r = w := by
  simp [reg]

theorem reg_setReg (s : State) (r q : Reg) (w : Word) :
    (s.setReg r w).reg q = if q = r then w else s.reg q := by
  simp [reg, Bank.get_set]

@[simp] theorem reg_setFlags (s : State) (f : Flags) (q : Reg) : (s.setFlags f).reg q = s.reg q := rfl
@[simp] theorem reg_setZ (s : State) (b : Bool) (q : Reg) : (s.setZ b).reg q = s.reg q := rfl
@[simp] theorem reg_setLr (s : State) (w : Word) (q : Reg) : (s.setLr w).reg q = s.reg q := rfl
@[simp] theorem reg_setPc (s : State) (t : Word) (q : Reg) : (s.setPc t).reg q = s.reg q := rfl
@[simp] theorem reg_setMem (s : State) (a w : Word) (q : Reg) : (s.setMem a w).reg q = s.reg q := rfl
@[simp] theorem reg_advance (s : State) (q : Reg) : s.advance.reg q = s.reg q := rfl

/-- What PC and LR are given lies below 2^`PC_WIDTH`. -/
theorem truncPc_lt (s : State) (w : Word) : (s.truncPc w).toNat < 2 ^ s.cfg.pcWidth := by
  have hpos : 0 < 2 ^ s.cfg.pcWidth := Nat.two_pow_pos _
  have h := Nat.mod_lt w.toNat hpos
  have hle : w.toNat % 2 ^ s.cfg.pcWidth % 2 ^ 16 ≤ w.toNat % 2 ^ s.cfg.pcWidth := Nat.mod_le _ _
  simp only [truncPc, BitVec.toNat_ofNat]
  omega

/-- A value of `PC_WIDTH` bits is left as it is. -/
theorem truncPc_of_lt (s : State) (w : Word) (h : w.toNat < 2 ^ s.cfg.pcWidth) :
    s.truncPc w = w := by
  simp [truncPc, Nat.mod_eq_of_lt h]

/-- At the default width PC holds any word. -/
theorem truncPc_of_width_16 (s : State) (w : Word) (h : s.cfg.pcWidth = 16) : s.truncPc w = w :=
  s.truncPc_of_lt w (by rw [h]; exact w.isLt)

/-- The width is the only thing `truncPc` reads. -/
theorem truncPc_congr {s t : State} (h : t.cfg = s.cfg) (w : Word) : t.truncPc w = s.truncPc w := by
  simp [truncPc, h]

@[simp] theorem afterFetch_cfg (s : State) : s.afterFetch.cfg = s.cfg := by
  unfold afterFetch; split <;> rfl
@[simp] theorem afterFetch_regs (s : State) : s.afterFetch.regs = s.regs := by
  unfold afterFetch; split <;> rfl
@[simp] theorem afterFetch_pc (s : State) : s.afterFetch.pc = s.pc := by
  unfold afterFetch; split <;> rfl
@[simp] theorem afterFetch_lr (s : State) : s.afterFetch.lr = s.lr := by
  unfold afterFetch; split <;> rfl
@[simp] theorem afterFetch_flags (s : State) : s.afterFetch.flags = s.flags := by
  unfold afterFetch; split <;> rfl
@[simp] theorem afterFetch_written (s : State) : s.afterFetch.written = s.written := by
  unfold afterFetch; split <;> rfl
@[simp] theorem afterFetch_imem (s : State) : s.afterFetch.imem = s.imem := by
  unfold afterFetch; split <;> rfl
@[simp] theorem afterFetch_mem (s : State) : s.afterFetch.mem = s.mem := by
  unfold afterFetch; split <;> rfl

/-- A fetch changes nothing unless memory is unified and holds a stored-to instruction word. -/
theorem afterFetch_of_settled (s : State) (h : s.fetchDraws = false) : s.afterFetch = s := by
  simp [afterFetch, h]

/-- Reset is the launch of nothing. -/
theorem launch_nothing : State.launch resetConfig 0 [] [] = State.reset := rfl

end State
end Sys2Proof.Machine
end

