-- ==== Sys2Proof/Laws/Ops.lean ====
section
/-! SUPPORT. What each shared operation can do, said once: it goes on exactly when what it reads may
be read, or what it accesses may be accessed, and then with exactly this. -/

namespace Sys2Proof.Machine

theorem canRead_of_draw {s : State} (h : s.cfg.unwrittenRead = .draw) (m : Bool) :
    s.canRead m = true := by simp [State.canRead, h]

theorem canReadReg_of_draw {s : State} (h : s.cfg.unwrittenRead = .draw) (r : Reg) :
    s.canReadReg r = true := canRead_of_draw h _

theorem canReadLr_of_draw {s : State} (h : s.cfg.unwrittenRead = .draw) :
    s.canReadLr = true := canRead_of_draw h _

theorem canReadFlag_of_draw {s : State} (h : s.cfg.unwrittenRead = .draw) (f : Flag) :
    s.canReadFlag f = true := canRead_of_draw h _

/-! `readReg` -/

theorem readReg_ok {s : State} {r : Reg} (h : s.canReadReg r = true) (k : Word → Out) :
    readReg s r k = k (s.reg r) := by simp [readReg, h]

theorem readReg_fault {s : State} {r : Reg} (h : s.canReadReg r = false) (k : Word → Out) :
    readReg s r k = .fault (.unwrittenRead (.reg r)) := by simp [readReg, h]

theorem readReg_next_iff {s t : State} {r : Reg} {k : Word → Out} :
    readReg s r k = .next t ↔ s.canReadReg r = true ∧ k (s.reg r) = .next t := by
  unfold readReg; split <;> simp_all

/-! `readLr` -/

theorem readLr_ok {s : State} (h : s.canReadLr = true) (k : Word → Out) :
    readLr s k = k s.lr := by simp [readLr, h]

theorem readLr_fault {s : State} (h : s.canReadLr = false) (k : Word → Out) :
    readLr s k = .fault (.unwrittenRead .lr) := by simp [readLr, h]

theorem readLr_next_iff {s t : State} {k : Word → Out} :
    readLr s k = .next t ↔ s.canReadLr = true ∧ k s.lr = .next t := by
  unfold readLr; split <;> simp_all

/-! `readFlag` -/

theorem readFlag_ok {s : State} {f : Flag} (h : s.canReadFlag f = true) (k : Bool → Out) :
    readFlag s f k = k (s.flags.get f) := by simp [readFlag, h]

theorem readFlag_fault {s : State} {f : Flag} (h : s.canReadFlag f = false) (k : Bool → Out) :
    readFlag s f k = .fault (.unwrittenRead (.flag f)) := by simp [readFlag, h]

theorem readFlag_next_iff {s t : State} {f : Flag} {k : Bool → Out} :
    readFlag s f k = .next t ↔ s.canReadFlag f = true ∧ k (s.flags.get f) = .next t := by
  unfold readFlag; split <;> simp_all

/-! What may be accessed -/

theorem installed_iff {s : State} {a : Word} : s.installed a = true ↔ a.toNat < s.dataWords := by
  simp [State.installed]

theorem not_installed_iff {s : State} {a : Word} :
    s.installed a = false ↔ s.dataWords ≤ a.toNat := by
  simp [State.installed]

/-- Only installed words can be reached (R58). -/
theorem dataWords_le (s : State) : s.dataWords ≤ s.cfg.memWords := Nat.min_le_left _ _

/-- At the default `ADDR_WIDTH` every installed word can be reached. -/
theorem dataWords_of_width_16 {s : State} (h : s.cfg.addrWidth = 16)
    (hm : s.cfg.memWords ≤ 65536) : s.dataWords = s.cfg.memWords := by
  simp only [State.dataWords, h]
  omega

/-- The parameters are all `dataWords` reads. -/
theorem dataWords_congr {s t : State} (h : t.cfg = s.cfg) : t.dataWords = s.dataWords := by
  simp [State.dataWords, h]

/-! `memRead` -/

theorem memRead_ok {s : State} {a w : Word} (hi : s.installed a = true)
    (hv : s.loadValue a = some w) (k : Word → Out) : memRead s a k = k w := by
  simp [memRead, hi, hv]

theorem memRead_next_iff {s t : State} {a : Word} {k : Word → Out} :
    memRead s a k = .next t ↔
      s.installed a = true ∧ ∃ w, s.loadValue a = some w ∧ k w = .next t := by
  unfold memRead
  split
  · split <;> simp_all
  · simp_all

/-- A written word reads as it was written, unless it lies in the program's range while `MEM_ORG` is
kept open. -/
theorem loadValue_of_listed {s : State} {a w : Word} (ht : s.textClash a = false)
    (h : s.mem.lookup a.toNat = some w) : s.loadValue a = some w := by
  simp [State.loadValue, ht, h]

/-- Where unwritten reads draw, every data read has a value. -/
theorem loadValue_of_draw {s : State} (h : s.cfg.unwrittenRead = .draw) (a : Word) :
    ∃ w, s.loadValue a = some w := by
  unfold State.loadValue
  simp only [h, if_true]
  split
  · exact ⟨_, rfl⟩
  · split <;> exact ⟨_, rfl⟩

/-! `memWrite` -/

theorem memWrite_ok {s : State} {a w : Word} (hi : s.installed a = true)
    (ht : s.textClash a = false) (k : State → Out) : memWrite s a w k = k (s.setMem a w) := by
  simp [memWrite, hi, ht]

theorem memWrite_next_iff {s t : State} {a w : Word} {k : State → Out} :
    memWrite s a w k = .next t ↔
      s.installed a = true ∧ s.textClash a = false ∧ k (s.setMem a w) = .next t := by
  unfold memWrite
  split
  · split <;> simp_all
  · simp_all

/-! The ends of an instruction. -/

theorem retire_next_iff {s t : State} : retire s = .next t ↔ s.advance = t := by
  simp [retire]

theorem branchIf_next_iff {s t : State} {taken : Bool} {off : Int} :
    branchIf taken off s = .next t ↔
      (if taken = true then s.setPc (s.branchTarget off) else s.advance) = t := by
  unfold branchIf retire; split <;> simp

/-! What a fetch reads -/

/-- A word that the launch or a store supplied is what the fetch reads. -/
theorem fetchedWord_of_supplied {s : State} {w : Word} (h : s.suppliedWord = some w) :
    s.fetchedWord = some w := by simp [State.fetchedWord, h]

theorem fetchedWord_of_unsupplied {s : State} (h : s.suppliedWord = none) :
    s.fetchedWord = s.unwrittenFetch := by simp [State.fetchedWord, h]

/-- Unless memory is unified, what is supplied is what the launch supplied (R32). -/
theorem suppliedWord_of_not_unified {s : State} (h : s.cfg.memOrg ≠ .unified) :
    s.suppliedWord = s.imem.lookup s.pc.toNat := by
  unfold State.suppliedWord; split <;> simp_all

/-- A unified memory that still holds what the launch placed at PC supplies that. -/
theorem suppliedWord_of_settled {s : State} (h : s.cfg.memOrg = .unified)
    (hm : s.mem.lookup s.pc.toNat = s.imem.lookup s.pc.toNat) :
    s.suppliedWord = s.mem.lookup s.pc.toNat := by
  simp [State.suppliedWord, h, State.fetchDraws, hm]

/-- Where unwritten reads draw, every fetch reads a word. -/
theorem fetchedWord_of_draw {s : State} (h : s.cfg.unwrittenRead = .draw) :
    ∃ w, s.fetchedWord = some w := by
  unfold State.fetchedWord
  split
  · exact ⟨_, rfl⟩
  · exact ⟨_, by simp only [State.unwrittenFetch, h]; rfl⟩

/-! `fetchInstr` and `step` -/

/-- A fetched word that decodes, and that the machine does not refuse for an ignored bit, is handed
on as the instruction it decodes to. -/
theorem fetchInstr_ok {s : State} {w : Word} {i : Instr} (hp : s.pc.toNat < s.fetchWords)
    (hw : s.fetchedWord = some w) (hd : decode w = .ok i)
    (hc : s.cfg.ignoredBits = .ignore ∨ canonical w i = true) (k : Instr → State → Out) :
    fetchInstr s k = k i s.afterFetch := by
  rcases hc with h | h <;> simp [fetchInstr, hp, hw, hd, h]

/-- What a step that goes on did: it fetched a word, the word decodes, and that instruction ran. -/
theorem step_next {s t : State} (h : step s = .next t) :
    s.pc.toNat < s.fetchWords ∧ ∃ w i, s.fetchedWord = some w ∧ decode w = .ok i ∧
      exec i s.afterFetch = .next t := by
  unfold step fetchInstr at h
  split at h
  · rename_i hp
    split at h
    · cases h
    · rename_i w hw
      split at h
      · cases h
      · rename_i i hd
        split at h
        · cases h
        · exact ⟨hp, w, i, hw, hd, h⟩
  · cases h

end Sys2Proof.Machine
end

