-- ==== Sys2Proof/Laws/PerInstr.lean ====
section
/-! SUPPORT. Statements made instruction by instruction. Family TableRow: the fixed bits of an
instruction's word are those spec/opcode_table.json gives its row. -/

namespace Sys2Proof.Laws.TableRow

/-- The lowest of the fixed bits of the instruction's row; the highest is 15. -/
def fixedLo : Instr → Nat
  | .add _ _ _ => 11
  | .addi _ _ _ => 11
  | .addib _ _ => 11
  | .adc _ _ _ => 11
  | .adci _ _ _ => 11
  | .neg _ _ => 11
  | .sub _ _ _ => 11
  | .subi _ _ _ => 11
  | .subib _ _ => 11
  | .suc _ _ _ => 11
  | .suci _ _ _ => 11
  | .cmp _ _ => 11
  | .cmpi _ _ => 11
  | .and _ _ _ => 11
  | .or _ _ _ => 11
  | .xor _ _ _ => 11
  | .not _ _ => 11
  | .nand _ _ _ => 11
  | .nor _ _ _ => 11
  | .lsl _ _ _ => 11
  | .lsr _ _ _ => 11
  | .asr _ _ _ => 11
  | .ldw _ _ _ => 11
  | .stw _ _ _ => 11
  | .lui _ _ => 11
  | .lli _ _ => 11
  | .br _ => 8
  | .bne _ => 8
  | .be _ => 8
  | .blt _ => 8
  | .bge _ => 8
  | .bwl _ => 8
  | .ret => 8
  | .jmp _ _ => 8
  | .push _ => 10
  | .pushLr => 10
  | .pop _ => 10
  | .popLr => 10

/-- The number those bits form. -/
def fixedValue : Instr → Nat
  | .add _ _ _ => 2
  | .addi _ _ _ => 6
  | .addib _ _ => 3
  | .adc _ _ _ => 4
  | .adci _ _ _ => 5
  | .neg _ _ => 26
  | .sub _ _ _ => 10
  | .subi _ _ _ => 14
  | .subib _ _ => 11
  | .suc _ _ _ => 12
  | .suci _ _ _ => 13
  | .cmp _ _ => 7
  | .cmpi _ _ => 15
  | .and _ _ _ => 16
  | .or _ _ _ => 17
  | .xor _ _ _ => 19
  | .not _ _ => 18
  | .nand _ _ _ => 22
  | .nor _ _ _ => 23
  | .lsl _ _ _ => 31
  | .lsr _ _ _ => 29
  | .asr _ _ _ => 28
  | .ldw _ _ _ => 0
  | .stw _ _ _ => 8
  | .lui _ _ => 20
  | .lli _ _ => 21
  | .br _ => 240
  | .bne _ => 246
  | .be _ => 247
  | .blt _ => 244
  | .bge _ => 245
  | .bwl _ => 243
  | .ret => 242
  | .jmp _ _ => 241
  | .push _ => 18
  | .pushLr => 19
  | .pop _ => 2
  | .popLr => 3

/-- The word of a well-formed instruction carries its row's fixed bits. -/
def Statement (i : Instr) : Prop := i.wf = true → bits (encode i) 15 (fixedLo i) = fixedValue i

theorem add (rd : Reg) (ra : Reg) (rb : Reg) : Statement (.add rd ra rb) := by
  intro _
  have := rd.num_lt
  have := ra.num_lt
  have := rb.num_lt
  simp only [bits, encode, fixedLo, fixedValue, wordA1, BitVec.toNat_ofNat]
  omega

theorem addi (rd : Reg) (ra : Reg) (imm : Nat) : Statement (.addi rd ra imm) := by
  intro h
  simp only [Instr.wf, fitsField, decide_eq_true_eq] at h
  have := rd.num_lt
  have := ra.num_lt
  simp only [bits, encode, fixedLo, fixedValue, wordA2, BitVec.toNat_ofNat]
  omega

theorem addib (rd : Reg) (imm : Nat) : Statement (.addib rd imm) := by
  intro h
  simp only [Instr.wf, fitsField, decide_eq_true_eq] at h
  have := rd.num_lt
  simp only [bits, encode, fixedLo, fixedValue, wordB, BitVec.toNat_ofNat]
  omega

theorem adc (rd : Reg) (ra : Reg) (rb : Reg) : Statement (.adc rd ra rb) := by
  intro _
  have := rd.num_lt
  have := ra.num_lt
  have := rb.num_lt
  simp only [bits, encode, fixedLo, fixedValue, wordA1, BitVec.toNat_ofNat]
  omega

theorem adci (rd : Reg) (ra : Reg) (imm : Nat) : Statement (.adci rd ra imm) := by
  intro h
  simp only [Instr.wf, fitsField, decide_eq_true_eq] at h
  have := rd.num_lt
  have := ra.num_lt
  simp only [bits, encode, fixedLo, fixedValue, wordA2, BitVec.toNat_ofNat]
  omega

theorem neg (rd : Reg) (ra : Reg) : Statement (.neg rd ra) := by
  intro _
  have := rd.num_lt
  have := ra.num_lt
  simp only [bits, encode, fixedLo, fixedValue, wordA1, BitVec.toNat_ofNat]
  omega

theorem sub (rd : Reg) (ra : Reg) (rb : Reg) : Statement (.sub rd ra rb) := by
  intro _
  have := rd.num_lt
  have := ra.num_lt
  have := rb.num_lt
  simp only [bits, encode, fixedLo, fixedValue, wordA1, BitVec.toNat_ofNat]
  omega

theorem subi (rd : Reg) (ra : Reg) (imm : Nat) : Statement (.subi rd ra imm) := by
  intro h
  simp only [Instr.wf, fitsField, decide_eq_true_eq] at h
  have := rd.num_lt
  have := ra.num_lt
  simp only [bits, encode, fixedLo, fixedValue, wordA2, BitVec.toNat_ofNat]
  omega

theorem subib (rd : Reg) (imm : Nat) : Statement (.subib rd imm) := by
  intro h
  simp only [Instr.wf, fitsField, decide_eq_true_eq] at h
  have := rd.num_lt
  simp only [bits, encode, fixedLo, fixedValue, wordB, BitVec.toNat_ofNat]
  omega

theorem suc (rd : Reg) (ra : Reg) (rb : Reg) : Statement (.suc rd ra rb) := by
  intro _
  have := rd.num_lt
  have := ra.num_lt
  have := rb.num_lt
  simp only [bits, encode, fixedLo, fixedValue, wordA1, BitVec.toNat_ofNat]
  omega

theorem suci (rd : Reg) (ra : Reg) (imm : Nat) : Statement (.suci rd ra imm) := by
  intro h
  simp only [Instr.wf, fitsField, decide_eq_true_eq] at h
  have := rd.num_lt
  have := ra.num_lt
  simp only [bits, encode, fixedLo, fixedValue, wordA2, BitVec.toNat_ofNat]
  omega

theorem cmp (ra : Reg) (rb : Reg) : Statement (.cmp ra rb) := by
  intro _
  have := ra.num_lt
  have := rb.num_lt
  simp only [bits, encode, fixedLo, fixedValue, wordA1, BitVec.toNat_ofNat]
  omega

theorem cmpi (ra : Reg) (imm : Nat) : Statement (.cmpi ra imm) := by
  intro h
  simp only [Instr.wf, fitsField, decide_eq_true_eq] at h
  have := ra.num_lt
  simp only [bits, encode, fixedLo, fixedValue, wordA2, BitVec.toNat_ofNat]
  omega

theorem and (rd : Reg) (ra : Reg) (rb : Reg) : Statement (.and rd ra rb) := by
  intro _
  have := rd.num_lt
  have := ra.num_lt
  have := rb.num_lt
  simp only [bits, encode, fixedLo, fixedValue, wordA1, BitVec.toNat_ofNat]
  omega

theorem or (rd : Reg) (ra : Reg) (rb : Reg) : Statement (.or rd ra rb) := by
  intro _
  have := rd.num_lt
  have := ra.num_lt
  have := rb.num_lt
  simp only [bits, encode, fixedLo, fixedValue, wordA1, BitVec.toNat_ofNat]
  omega

theorem xor (rd : Reg) (ra : Reg) (rb : Reg) : Statement (.xor rd ra rb) := by
  intro _
  have := rd.num_lt
  have := ra.num_lt
  have := rb.num_lt
  simp only [bits, encode, fixedLo, fixedValue, wordA1, BitVec.toNat_ofNat]
  omega

theorem not (rd : Reg) (ra : Reg) : Statement (.not rd ra) := by
  intro _
  have := rd.num_lt
  have := ra.num_lt
  simp only [bits, encode, fixedLo, fixedValue, wordA1, BitVec.toNat_ofNat]
  omega

theorem nand (rd : Reg) (ra : Reg) (rb : Reg) : Statement (.nand rd ra rb) := by
  intro _
  have := rd.num_lt
  have := ra.num_lt
  have := rb.num_lt
  simp only [bits, encode, fixedLo, fixedValue, wordA1, BitVec.toNat_ofNat]
  omega

theorem nor (rd : Reg) (ra : Reg) (rb : Reg) : Statement (.nor rd ra rb) := by
  intro _
  have := rd.num_lt
  have := ra.num_lt
  have := rb.num_lt
  simp only [bits, encode, fixedLo, fixedValue, wordA1, BitVec.toNat_ofNat]
  omega

theorem lsl (rd : Reg) (ra : Reg) (imm : Nat) : Statement (.lsl rd ra imm) := by
  intro h
  simp only [Instr.wf, fitsField, decide_eq_true_eq] at h
  have := rd.num_lt
  have := ra.num_lt
  simp only [bits, encode, fixedLo, fixedValue, wordA2, BitVec.toNat_ofNat]
  omega

theorem lsr (rd : Reg) (ra : Reg) (imm : Nat) : Statement (.lsr rd ra imm) := by
  intro h
  simp only [Instr.wf, fitsField, decide_eq_true_eq] at h
  have := rd.num_lt
  have := ra.num_lt
  simp only [bits, encode, fixedLo, fixedValue, wordA2, BitVec.toNat_ofNat]
  omega

theorem asr (rd : Reg) (ra : Reg) (imm : Nat) : Statement (.asr rd ra imm) := by
  intro h
  simp only [Instr.wf, fitsField, decide_eq_true_eq] at h
  have := rd.num_lt
  have := ra.num_lt
  simp only [bits, encode, fixedLo, fixedValue, wordA2, BitVec.toNat_ofNat]
  omega

theorem ldw (rd : Reg) (ra : Reg) (imm : Nat) : Statement (.ldw rd ra imm) := by
  intro h
  simp only [Instr.wf, fitsField, decide_eq_true_eq] at h
  have := rd.num_lt
  have := ra.num_lt
  simp only [bits, encode, fixedLo, fixedValue, wordA2, BitVec.toNat_ofNat]
  omega

theorem stw (rd : Reg) (ra : Reg) (imm : Nat) : Statement (.stw rd ra imm) := by
  intro h
  simp only [Instr.wf, fitsField, decide_eq_true_eq] at h
  have := rd.num_lt
  have := ra.num_lt
  simp only [bits, encode, fixedLo, fixedValue, wordA2, BitVec.toNat_ofNat]
  omega

theorem lui (rd : Reg) (imm : Nat) : Statement (.lui rd imm) := by
  intro h
  simp only [Instr.wf, fitsField, decide_eq_true_eq] at h
  have := rd.num_lt
  simp only [bits, encode, fixedLo, fixedValue, wordB, BitVec.toNat_ofNat]
  omega

theorem lli (rd : Reg) (imm : Nat) : Statement (.lli rd imm) := by
  intro h
  simp only [Instr.wf, fitsField, decide_eq_true_eq] at h
  have := rd.num_lt
  simp only [bits, encode, fixedLo, fixedValue, wordB, BitVec.toNat_ofNat]
  omega

theorem br (off : Int) : Statement (.br off) := by
  intro _
  have := offsetByte_lt off
  simp only [bits, encode, fixedLo, fixedValue, wordB, BitVec.toNat_ofNat]
  omega

theorem bne (off : Int) : Statement (.bne off) := by
  intro _
  have := offsetByte_lt off
  simp only [bits, encode, fixedLo, fixedValue, wordB, BitVec.toNat_ofNat]
  omega

theorem be (off : Int) : Statement (.be off) := by
  intro _
  have := offsetByte_lt off
  simp only [bits, encode, fixedLo, fixedValue, wordB, BitVec.toNat_ofNat]
  omega

theorem blt (off : Int) : Statement (.blt off) := by
  intro _
  have := offsetByte_lt off
  simp only [bits, encode, fixedLo, fixedValue, wordB, BitVec.toNat_ofNat]
  omega

theorem bge (off : Int) : Statement (.bge off) := by
  intro _
  have := offsetByte_lt off
  simp only [bits, encode, fixedLo, fixedValue, wordB, BitVec.toNat_ofNat]
  omega

theorem bwl (off : Int) : Statement (.bwl off) := by
  intro _
  have := offsetByte_lt off
  simp only [bits, encode, fixedLo, fixedValue, wordB, BitVec.toNat_ofNat]
  omega

theorem ret : Statement .ret := by
  intro _
  simp only [bits, encode, fixedLo, fixedValue, wordB, BitVec.toNat_ofNat]
  omega

theorem jmp (ra : Reg) (imm : Nat) : Statement (.jmp ra imm) := by
  intro h
  simp only [Instr.wf, fitsField, decide_eq_true_eq] at h
  have := ra.num_lt
  simp only [bits, encode, fixedLo, fixedValue, wordA2, BitVec.toNat_ofNat]
  omega

theorem push (ra : Reg) : Statement (.push ra) := by
  intro _
  have := ra.num_lt
  simp only [bits, encode, fixedLo, fixedValue, wordE, BitVec.toNat_ofNat]
  omega

theorem pushLr : Statement .pushLr := by
  intro _
  simp only [bits, encode, fixedLo, fixedValue, wordE, BitVec.toNat_ofNat]
  omega

theorem pop (ra : Reg) : Statement (.pop ra) := by
  intro _
  have := ra.num_lt
  simp only [bits, encode, fixedLo, fixedValue, wordE, BitVec.toNat_ofNat]
  omega

theorem popLr : Statement .popLr := by
  intro _
  simp only [bits, encode, fixedLo, fixedValue, wordE, BitVec.toNat_ofNat]
  omega

end Sys2Proof.Laws.TableRow
end

