-- ==== Sys2Proof/Tests/Slice0.lean ====
section
/-! SUPPORT. Tests, and for every obligation with hypotheses a named witness that meets them. Words
and results come from spec/95_test_vectors.md (S1 to S4, V1 to V11) and the rules it cites. -/

namespace Sys2Proof.Tests

open Sys2Proof.Machine

/-! ### WellFormed refuses an ill-formed term by each of its checks -/

theorem test_wf_imm4 : (Instr.lsl .r5 .r3 15).wf = true ∧ (Instr.lsl .r5 .r3 16).wf = false := by
  decide
theorem test_wf_imm5 : (Instr.ldw .r5 .r3 31).wf = true ∧ (Instr.ldw .r5 .r3 32).wf = false := by
  decide
theorem test_wf_imm8 : (Instr.lui .r5 255).wf = true ∧ (Instr.lui .r5 256).wf = false := by
  decide
theorem test_wf_offset : (Instr.br 127).wf = true ∧ (Instr.br (-128)).wf = true ∧
    (Instr.br 128).wf = false ∧ (Instr.br (-129)).wf = false := by decide

/-! ### Decoding: every constructor, its word written out field by field -/

theorem test_decode_addition :
    decode 0b00010_101_011_100_00#16 = .ok (.add .r5 .r3 .r4) ∧
    decode 0b00110_101_011_01001#16 = .ok (.addi .r5 .r3 9) ∧
    decode 0b00011_101_10010110#16 = .ok (.addib .r5 150) ∧
    decode 0b00100_101_011_100_00#16 = .ok (.adc .r5 .r3 .r4) ∧
    decode 0b00101_101_011_01001#16 = .ok (.adci .r5 .r3 9) :=
  ⟨rfl, rfl, rfl, rfl, rfl⟩

theorem test_decode_subtraction :
    decode 0b11010_101_101_000_00#16 = .ok (.neg .r5 .r5) ∧
    decode 0b01010_101_011_100_00#16 = .ok (.sub .r5 .r3 .r4) ∧
    decode 0b01110_101_011_01001#16 = .ok (.subi .r5 .r3 9) ∧
    decode 0b01011_101_10010110#16 = .ok (.subib .r5 150) ∧
    decode 0b01100_101_011_100_00#16 = .ok (.suc .r5 .r3 .r4) ∧
    decode 0b01101_101_011_01001#16 = .ok (.suci .r5 .r3 9) ∧
    decode 0b00111_000_011_100_00#16 = .ok (.cmp .r3 .r4) ∧
    decode 0b01111_000_011_01001#16 = .ok (.cmpi .r3 9) :=
  ⟨rfl, rfl, rfl, rfl, rfl, rfl, rfl, rfl⟩

theorem test_decode_logic :
    decode 0b10000_101_011_100_00#16 = .ok (.and .r5 .r3 .r4) ∧
    decode 0b10001_101_011_100_00#16 = .ok (.or .r5 .r3 .r4) ∧
    decode 0b10011_101_011_100_00#16 = .ok (.xor .r5 .r3 .r4) ∧
    decode 0b10010_101_011_000_00#16 = .ok (.not .r5 .r3) ∧
    decode 0b10110_101_011_100_00#16 = .ok (.nand .r5 .r3 .r4) ∧
    decode 0b10111_101_011_100_00#16 = .ok (.nor .r5 .r3 .r4) :=
  ⟨rfl, rfl, rfl, rfl, rfl, rfl⟩

theorem test_decode_shifts :
    decode 0b11111_101_011_0_0011#16 = .ok (.lsl .r5 .r3 3) ∧
    decode 0b11101_101_011_0_0011#16 = .ok (.lsr .r5 .r3 3) ∧
    decode 0b11100_101_011_0_0011#16 = .ok (.asr .r5 .r3 3) :=
  ⟨rfl, rfl, rfl⟩

theorem test_decode_transfer :
    decode 0b00000_101_011_00010#16 = .ok (.ldw .r5 .r3 2) ∧
    decode 0b01000_101_011_00010#16 = .ok (.stw .r5 .r3 2) ∧
    decode 0b10100_101_10010110#16 = .ok (.lui .r5 150) ∧
    decode 0b10101_101_10010110#16 = .ok (.lli .r5 150) :=
  ⟨rfl, rfl, rfl, rfl⟩

theorem test_decode_control :
    decode 0b11110_000_00000100#16 = .ok (.br 4) ∧
    decode 0b11110_110_11111110#16 = .ok (.bne (-2)) ∧
    decode 0b11110_111_00000011#16 = .ok (.be 3) ∧
    decode 0b11110_100_10000000#16 = .ok (.blt (-128)) ∧
    decode 0b11110_101_01111111#16 = .ok (.bge 127) ∧
    decode 0b11110_011_00000100#16 = .ok (.bwl 4) ∧
    decode 0b11110_010_00000000#16 = .ok .ret ∧
    decode 0b11110_001_011_00010#16 = .ok (.jmp .r3 2) :=
  ⟨rfl, rfl, rfl, rfl, rfl, rfl, rfl, rfl⟩

theorem test_decode_stack :
    decode 0b01001_0_00_010_00000#16 = .ok (.push .r2) ∧
    decode 0b01001_1_00_000_00000#16 = .ok .pushLr ∧
    decode 0b00001_0_00_010_00000#16 = .ok (.pop .r2) ∧
    decode 0b00001_1_00_000_00000#16 = .ok .popLr :=
  ⟨rfl, rfl, rfl, rfl⟩

/-- V10: ignored bits set. -/
theorem test_decode_ignored_bits :
    decode 0xFFFF#16 = .ok (.lsl .r7 .r7 15) ∧ decode 0x1573#16 = .ok (.add .r5 .r3 .r4) ∧
    decode 0xF2AB#16 = .ok .ret ∧ decode 0x4FFF#16 = .ok .pushLr ∧
    decode 0x0BFF#16 = .ok (.pop .r7) ∧ decode 0x3F70#16 = .ok (.cmp .r3 .r4) ∧
    decode 0x7F69#16 = .ok (.cmpi .r3 9) ∧ decode 0xD5BF#16 = .ok (.neg .r5 .r5) :=
  ⟨rfl, rfl, rfl, rfl, rfl, rfl, rfl, rfl⟩

/-- V10: the unassigned opcodes. -/
theorem test_decode_unassigned :
    decode 0xC000#16 = .error (.unassignedOpcode 0xC000#16) ∧
    decode 0xC7FF#16 = .error (.unassignedOpcode 0xC7FF#16) ∧
    decode 0xC800#16 = .error (.unassignedOpcode 0xC800#16) ∧
    decode 0xDFFF#16 = .error (.unassignedOpcode 0xDFFF#16) := ⟨rfl, rfl, rfl, rfl⟩

/-! ### Small states -/

/-- The parameters of the vectors: the spec's defaults. -/
def strict : Config := { resetConfig with unwrittenRead := .fault }

/-- Nothing written, at address `pc`. -/
def blank (c : Config) (pc : Word) : State := { State.reset with cfg := c, pc := pc }

/-- R3, R4 and R5 written. -/
def box (a b d : Word) : State := ((blank strict 0#16).setReg .r3 a).setReg .r4 b |>.setReg .r5 d

/-- The same with the flags written. -/
def boxF (a b d : Word) (f : Flags) : State := (box a b d).setFlags f

/-- What R5 and the flags hold after an instruction that goes on. -/
def after (i : Instr) (s : State) : Option (Word × Flags) :=
  (stateOf (exec i s)).map fun (t : State) => (t.reg .r5, t.flags)

/-- Where PC and LR are after an instruction that goes on. -/
def goesTo (i : Instr) (s : State) : Option (Word × Word) :=
  (stateOf (exec i s)).map fun (t : State) => (t.pc, t.lr)

/-- One register after an instruction that goes on, with one word of memory. -/
def afterAt (r : Reg) (a : Nat) (i : Instr) (s : State) : Option (Word × Option Word) :=
  (stateOf (exec i s)).map fun (t : State) => (t.reg r, t.mem.lookup a)

def cvnz (c v n z : Bool) : Flags := ⟨c, v, n, z⟩

/-! ### Arithmetic (V1 to V3) -/

theorem test_add : after (.add .r5 .r3 .r4) (box 0x8000#16 0x8000#16 0#16) =
    some (0x0000#16, cvnz true true false true) := by decide
theorem test_add_source_is_destination : after (.add .r5 .r5 .r5) (box 0#16 0#16 0x7FFF#16) =
    some (0xFFFE#16, cvnz false true true false) := by decide
theorem test_addi : after (.addi .r5 .r3 31) (box 0xFFF0#16 0#16 0#16) =
    some (0x000F#16, cvnz true false false false) := by decide
theorem test_addi_sign : after (.addi .r5 .r3 31)
    { box 0xFFF0#16 0#16 0#16 with cfg := { strict with imm5Alu := .sign } } =
    some (0xFFEF#16, cvnz true false true false) := by decide
theorem test_addib : after (.addib .r5 150) (box 0#16 0#16 0xFFFF#16) =
    some (0x0095#16, cvnz true false false false) := by decide
theorem test_adc : after (.adc .r5 .r3 .r4)
    (boxF 0x7FFF#16 0#16 0#16 (cvnz true false false false)) =
    some (0x8000#16, cvnz false true true false) := by decide
theorem test_adci : after (.adci .r5 .r3 0)
    (boxF 0xFFFF#16 0#16 0#16 (cvnz true false false false)) =
    some (0x0000#16, cvnz true false false true) := by decide
theorem test_neg : after (.neg .r5 .r3) (box 0x8000#16 0#16 0#16) =
    some (0x8000#16, cvnz false true true false) := by decide
theorem test_sub : after (.sub .r5 .r3 .r4) (box 0x8000#16 0x0001#16 0#16) =
    some (0x7FFF#16, cvnz true true false false) := by decide
theorem test_sub_borrow : after (.sub .r5 .r3 .r4)
    { box 3#16 5#16 0#16 with cfg := { strict with subCarry := .borrow } } =
    some (0xFFFE#16, cvnz true false true false) := by decide
theorem test_subi : after (.subi .r5 .r3 5) (box 0x0003#16 0#16 0#16) =
    some (0xFFFE#16, cvnz false false true false) := by decide
theorem test_subib : after (.subib .r5 150) (box 0#16 0#16 0x0100#16) =
    some (0x006A#16, cvnz true false false false) := by decide
theorem test_suc : after (.suc .r5 .r3 .r4)
    (boxF 0x0005#16 0x0003#16 0#16 (cvnz false false false false)) =
    some (0x0001#16, cvnz true false false false) := by decide
theorem test_suc_borrow : after (.suc .r5 .r3 .r4)
    { boxF 0x8000#16 0#16 0#16 (cvnz true false false false) with
      cfg := { strict with subCarry := .borrow } } =
    some (0x7FFF#16, cvnz false true false false) := by decide
theorem test_suci : after (.suci .r5 .r3 0)
    (boxF 0x8000#16 0#16 0#16 (cvnz false false false false)) =
    some (0x7FFF#16, cvnz true true false false) := by decide
theorem test_cmp : after (.cmp .r3 .r4) (box 0x8000#16 0x0001#16 0x1234#16) =
    some (0x1234#16, cvnz true true false false) := by decide
theorem test_cmpi : after (.cmpi .r3 5) (box 0x0005#16 0#16 0x1234#16) =
    some (0x1234#16, cvnz true false false true) := by decide

/-! ### Logic and shifts (V4, V5) -/

theorem test_and : after (.and .r5 .r3 .r4)
    (boxF 0x8001#16 0x8001#16 0#16 (cvnz true true false true)) =
    some (0x8001#16, cvnz true true false false) := by decide
theorem test_or : after (.or .r5 .r3 .r3)
    (boxF 0x8000#16 0#16 0#16 (cvnz true true false false)) =
    some (0x8000#16, cvnz true true false false) := by decide
theorem test_xor : after (.xor .r5 .r3 .r4)
    (boxF 0x8001#16 0x8001#16 0#16 (cvnz false false true false)) =
    some (0x0000#16, cvnz false false true true) := by decide
theorem test_not : after (.not .r5 .r3)
    (boxF 0x0F0F#16 0#16 0#16 (cvnz true false false true)) =
    some (0xF0F0#16, cvnz true false false false) := by decide
theorem test_nand : after (.nand .r5 .r3 .r4)
    (boxF 0x0F0F#16 0x00FF#16 0#16 (cvnz false false false true)) =
    some (0xFFF0#16, cvnz false false false false) := by decide
theorem test_nor : after (.nor .r5 .r3 .r4)
    (boxF 0xAAAA#16 0x5555#16 0#16 (cvnz false true false false)) =
    some (0x0000#16, cvnz false true false true) := by decide
theorem test_lsl : after (.lsl .r5 .r3 15)
    (boxF 0xFFFF#16 0#16 0#16 (cvnz true true true true)) =
    some (0x8000#16, cvnz true true true true) := by decide
theorem test_lsr : after (.lsr .r5 .r3 3)
    (boxF 0x9696#16 0#16 0#16 (cvnz true true true true)) =
    some (0x12D2#16, cvnz true true true true) := by decide
theorem test_asr : after (.asr .r5 .r3 3)
    (boxF 0x9696#16 0#16 0#16 (cvnz true true true true)) =
    some (0xF2D2#16, cvnz true true true true) := by decide

/-! ### Byte loads and data transfer (V6, V8) -/

theorem test_lui : after (.lui .r5 150) (box 0#16 0#16 0x1234#16) =
    some (0x9634#16, cvnz false false false false) := by decide
theorem test_lui_then_read_faults : (stateOf (exec (.lui .r5 150) (blank strict 0#16))).map
    (fun (t : State) => (t.written.regs.get .r5, (stateOf (exec (.not .r5 .r5) t)).isSome)) =
    some (⟨true, false⟩, false) := by decide
theorem test_lli : after (.lli .r5 150) (box 0#16 0#16 0x1234#16) =
    some (0x1296#16, cvnz false false false false) := by decide
theorem test_ldw : afterAt .r3 0 (.ldw .r3 .r3 0)
    { box 0x0100#16 0#16 0#16 with mem := [(0x0100, 0x0007#16)] } =
    some (0x0007#16, none) := by decide
/-- V8: `LDW R5, [R3, #31]` with R3 = 0x0100 under `IMM5_MEM_EXT = sign`. -/
theorem test_data_address_sign :
    (blank { strict with imm5Mem := .sign } 0#16).dataAddress 0x0100#16 31 = 0x00FF#16 := by decide
/-- R58, and log 31: the last word `ADDR_WIDTH` bits number, and the address after it. -/
theorem test_installed :
    (blank { strict with addrWidth := 8 } 0#16).installed 0x00FF#16 = true ∧
    (blank { strict with addrWidth := 8 } 0#16).installed 0x0100#16 = false := by decide
theorem test_ldw_wraps : afterAt .r5 0 (.ldw .r5 .r3 1)
    { box 0xFFFF#16 0#16 0#16 with mem := [(0, 0x0042#16)] } =
    some (0x0042#16, some 0x0042#16) := by decide
theorem test_stw : afterAt .r5 0x0102 (.stw .r5 .r3 2) (box 0x0100#16 0#16 0xCAFE#16) =
    some (0xCAFE#16, some 0xCAFE#16) := by decide

/-! ### Control transfer (V7) -/

theorem test_br : goesTo (.br 127) (blank strict 0x0010#16) = some (0x008F#16, 0#16) := by decide
theorem test_br_wraps : goesTo (.br (-1)) (blank strict 0#16) = some (0xFFFF#16, 0#16) := by decide
theorem test_bne : goesTo (.bne 3) ((blank strict 0x0020#16).setFlags (cvnz false false false true))
    = some (0x0021#16, 0#16) := by decide
theorem test_bne_taken :
    goesTo (.bne (-2)) ((blank strict 0x0006#16).setFlags (cvnz true true true false)) =
    some (0x0004#16, 0#16) := by decide
theorem test_be : goesTo (.be 3) ((blank strict 0x0020#16).setFlags (cvnz false false false true))
    = some (0x0023#16, 0#16) := by decide
theorem test_be_not_taken :
    goesTo (.be 3) ((blank strict 0x0020#16).setFlags (cvnz true true true false)) =
    some (0x0021#16, 0#16) := by decide
theorem test_blt : goesTo (.blt 3) ((blank strict 0x0020#16).setFlags (cvnz false true false false))
    = some (0x0023#16, 0#16) := by decide
theorem test_blt_not_taken :
    goesTo (.blt 3) ((blank strict 0x0020#16).setFlags (cvnz false true true false)) =
    some (0x0021#16, 0#16) := by decide
theorem test_bge : goesTo (.bge 3) ((blank strict 0x0020#16).setFlags (cvnz false true true false))
    = some (0x0023#16, 0#16) := by decide
theorem test_bge_not_taken :
    goesTo (.bge 3) ((blank strict 0x0020#16).setFlags (cvnz false true false false)) =
    some (0x0021#16, 0#16) := by decide
theorem test_bwl : goesTo (.bwl 4) (blank strict 0x0003#16) = some (0x0007#16, 0x0004#16) := by
  decide
theorem test_bwl_wraps : goesTo (.bwl 0) (blank strict 0xFFFF#16) = some (0xFFFF#16, 0#16) := by
  decide
theorem test_ret : goesTo .ret ((blank strict 0x0009#16).setLr 0x0004#16) =
    some (0x0004#16, 0x0004#16) := by decide
theorem test_jmp : goesTo (.jmp .r3 31) (box 0x0040#16 0#16 0#16) = some (0x005F#16, 0#16) := by
  decide
theorem test_jmp_sign : goesTo (.jmp .r3 31)
    { box 0x0040#16 0#16 0#16 with cfg := { strict with imm5Jmp := .sign } } =
    some (0x003F#16, 0#16) := by decide

/-! ### Stack (S5, V9) -/

/-- R7 written. -/
def stack (c : Config) (sp : Word) : State := (blank c 0#16).setReg .r7 sp

theorem test_push : afterAt .r7 0x00FF (.push .r1)
    ((stack strict 0x00FF#16).setReg .r1 0x1234#16) =
    some (0x00FE#16, some 0x1234#16) := by decide
theorem test_push_prose : afterAt .r7 0x00FE (.push .r1)
    ((stack { strict with stackOrder := .prose } 0x00FF#16).setReg .r1 0x1234#16) =
    some (0x00FE#16, some 0x1234#16) := by decide
theorem test_push_lr : afterAt .r7 0x00FD .pushLr
    ((stack strict 0x00FD#16).setLr 0x0009#16) = some (0x00FC#16, some 0x0009#16) := by decide
theorem test_pop : (stateOf (exec (.pop .r2)
    { stack strict 0x00FE#16 with mem := [(0x00FF, 0x1234#16)] })).map
    (fun (t : State) => (t.reg .r2, t.reg .r7)) = some (0x1234#16, 0x00FF#16) := by decide
theorem test_pop_r7 : (stateOf (exec (.pop .r7)
    { stack strict 0x00FE#16 with mem := [(0x00FF, 0x1234#16)] })).map
    (fun (t : State) => t.reg .r7) = some 0x1234#16 := by decide
theorem test_pop_lr : (stateOf (exec .popLr
    { stack { strict with stackOrder := .prose } 0x00FC#16 with mem := [(0x00FC, 9#16)] })).map
    (fun (t : State) => (t.lr, t.reg .r7)) = some (0x0009#16, 0x00FD#16) := by decide

/-! ### Steps -/

/-- A word placed at the reset address is the first to run: LUI R5, #150 (V6). -/
theorem test_first_step : (stateOf (step (State.reset.withFetchWord 16 0xA596))).map
    (fun (t : State) => (t.reg .r5, t.pc)) = some (0x9600#16, 1#16) := by decide

/-- R213: an illegal word faults as illegal although nothing has been written (V11). -/
theorem test_illegal_first : step { blank strict 0#16 with imem := [(0, 0xC000#16)] } =
    .fault (.illegalInstruction 0xC000#16 0#16) := rfl

/-- R36, R211: a fetch of a word nothing supplied (log 10) faults under `UNWRITTEN_READ = fault`. -/
theorem test_unsupplied_text : step (blank strict 7#16) =
    .fault (.unwrittenRead (.text 7#16)) := rfl

/-- Under draw it reads the free value of the address; a unified memory, what an LDW there draws. -/
theorem test_unsupplied_text_draws :
    (blank resetConfig 7#16).fetchedWord = some (Config.unwrittenText 7 none) ∧
    (blank { resetConfig with memOrg := .unified } 7#16).fetchedWord =
      (blank { resetConfig with memOrg := .unified } 7#16).loadValue 7#16 := ⟨rfl, rfl⟩

/-- R98: bit 4 of LSL set, refused by a cautious machine (V5). -/
theorem test_cautious : step
    { blank { strict with ignoredBits := .refuse } 0#16 with imem := [(0, 0xFD73#16)] } =
    .refused (.nonCanonicalEncoding 0xFD73#16) := rfl

/-! ### Witnesses: for each obligation with hypotheses, states and operands that meet them, one for
each clause and at the ends of its range -/

/-- A machine of 16 instruction words and 256 data words whose PC has four bits. -/
def small : Config := { strict with pcWidth := 4, memWords := 256, imemWords := 16 }

/-- The word `w` at `pc`. -/
def fetching (c : Config) (pc w : Word) : State :=
  { blank c pc with imem := [(pc.toNat, w)] }

/-- A unified machine whose word at PC was `was` at the launch and is `now`. -/
def storedTo (was now : Word) : State :=
  { blank { strict with memOrg := .unified } 0#16 with imem := [(0, was)], mem := [(0, now)] }

/-- A machine that keeps `MEM_ORG` open, with one instruction word at address 0x0102. -/
def openOrg (base : Word) (u : UnwrittenRead) : State :=
  { box base 0#16 0xCAFE#16 with
    cfg := { strict with memOrg := .unresolved, unwrittenRead := u }
    imem := [(0x0102, 0xF000#16)] }

theorem witness_DecodeEncodeRoundTrip :
    (Instr.jmp .r7 31).wf = true ∧ (Instr.asr .r0 .r7 15).wf = true ∧
    (Instr.lli .r7 255).wf = true ∧ (Instr.blt (-128)).wf = true ∧ (Instr.bwl 127).wf = true := by
  decide

theorem witness_DecodedInstructionsAreWellFormed :
    decode 0xF480#16 = .ok (.blt (-128)) ∧ decode 0x7FFF#16 = .ok (.cmpi .r7 31) := ⟨rfl, rfl⟩

/-- The numbers at the ends of the unassigned ranges, and those next to them, which are assigned. -/
theorem witness_UnassignedOpcodesAreIllegal_range :
    (∀ n ∈ [0xC000, 0xCFFF, 0xD800, 0xDFFF],
      (0xC000 ≤ n ∧ n ≤ 0xCFFF) ∨ (0xD800 ≤ n ∧ n ≤ 0xDFFF)) ∧
    (∀ n ∈ [0xBFFF, 0xD000, 0xD7FF, 0xE000],
      ¬ ((0xC000 ≤ n ∧ n ≤ 0xCFFF) ∨ (0xD800 ≤ n ∧ n ≤ 0xDFFF))) := by decide

/-- Those words fetched from the last installed address. -/
theorem witness_UnassignedOpcodesAreIllegal_fetch :
    ∀ w ∈ [0xC000#16, 0xCFFF#16, 0xD800#16, 0xDFFF#16],
      (fetching small 15#16 w).pc.toNat < (fetching small 15#16 w).fetchWords ∧
      (fetching small 15#16 w).fetchedWord = some w :=
  fun _ _ => ⟨by simp [fetching, blank, small, strict, State.fetchWords, resetConfig], rfl⟩

theorem witness_IgnoredBitsDoNotMatter :
    let s := fetching { small with ignoredBits := .refuse } 15#16 0xFD73#16
    s.pc.toNat < s.fetchWords ∧ s.fetchedWord = some 0xFD73#16 ∧
    decode 0xFD73#16 = .ok (.lsl .r5 .r3 3) ∧ s.cfg.ignoredBits = .refuse ∧
    0xFD73#16 &&& ignoredMask (.lsl .r5 .r3 3) ≠ 0#16 :=
  ⟨by decide, rfl, rfl, rfl, by decide⟩

theorem witness_CondSelectsTheControlTransfer :
    ∀ c < 8, bits (BitVec.ofNat 16 (0xF000 + 256 * c)) 15 11 = 0b11110 ∧
      bits (BitVec.ofNat 16 (0xF000 + 256 * c)) 10 8 = c ∧
      bits (BitVec.ofNat 16 (0xF0FF + 256 * c)) 15 11 = 0b11110 ∧
      bits (BitVec.ofNat 16 (0xF0FF + 256 * c)) 10 8 = c := by decide

/-- A settled fetch, with ignored bits set and with none set in a cautious machine, at the last
installed address. -/
theorem witness_StepRunsTheDecodedInstruction_settled :
    let s := fetching small 15#16 0x1573#16
    let t := fetching { small with ignoredBits := .refuse } 15#16 0x1570#16
    s.pc.toNat < s.fetchWords ∧ s.fetchedWord = some 0x1573#16 ∧
    decode 0x1573#16 = .ok (.add .r5 .r3 .r4) ∧ s.cfg.ignoredBits = .ignore ∧
    s.fetchDraws = false ∧
    t.pc.toNat < t.fetchWords ∧ t.fetchedWord = some 0x1570#16 ∧
    decode 0x1570#16 = .ok (.add .r5 .r3 .r4) ∧
    0x1570#16 &&& ignoredMask (.add .r5 .r3 .r4) = 0#16 ∧ t.fetchDraws = false :=
  ⟨by decide, rfl, rfl, rfl, by decide, by decide, rfl, rfl, by decide, by decide⟩

/-- A fetch of a word a store has changed: whichever of the two words it reads, it decodes. -/
theorem witness_StepRunsTheDecodedInstruction_unsettled :
    let s := storedTo 0xF000#16 0xA596#16
    s.pc.toNat < s.fetchWords ∧ s.fetchDraws = true ∧
    ∃ w i, s.fetchedWord = some w ∧ decode w = .ok i ∧ s.cfg.ignoredBits = .ignore ∧
      w &&& ignoredMask i = 0#16 := by
  refine ⟨by decide, by decide, ?_⟩
  cases h : Config.fetchSeesStore 0
  · exact ⟨0xF000#16, .br 0, by simp [State.fetchedWord, State.suppliedWord, storedTo, blank,
      State.fetchDraws, strict, State.reset, h, Memory.lookup], rfl, rfl, by decide⟩
  · exact ⟨0xA596#16, .lui .r5 150, by simp [State.fetchedWord, State.suppliedWord, storedTo, blank,
      State.fetchDraws, strict, State.reset, h, Memory.lookup], rfl, rfl, by decide⟩

theorem witness_FetchReadsTheProgram :
    (fetching strict 0#16 0xF000#16).cfg.memOrg ≠ .unified ∧
    (openOrg 0#16 .fault).cfg.memOrg ≠ .unified ∧
    (storedTo 0xF000#16 0xF000#16).cfg.memOrg = .unified ∧
    (storedTo 0xF000#16 0xF000#16).mem.lookup 0 = (storedTo 0xF000#16 0xF000#16).imem.lookup 0 ∧
    (storedTo 0xF000#16 0xA596#16).mem.lookup 0 ≠
      (storedTo 0xF000#16 0xA596#16).imem.lookup 0 ∧
    (∀ c ∈ [strict, resetConfig, { strict with memOrg := .unified },
      { resetConfig with memOrg := .unified }],
      (blank c 0#16).imem.lookup 0 = none ∧ (blank c 0#16).mem.lookup 0 = none) ∧
    strict.unwrittenRead = .fault ∧ resetConfig.unwrittenRead = .draw := by
  decide

/-- At the reset address, and at an address that was not installed before. -/
theorem witness_PlacedWordRunsNext :
    decode (tableWord 16 0xA596) = .ok (.lui .r5 150) ∧ State.reset.cfg.ignoredBits = .ignore ∧
    (blank { small with pcWidth := 16 } 16#16).cfg.ignoredBits = .ignore := ⟨rfl, rfl, rfl⟩

theorem witness_NoStepChangesTheProgram :
    ((fetching strict 0#16 0xA596#16).cfg.memOrg ≠ .unified ∧
      ∃ t, step (fetching strict 0#16 0xA596#16) = .next t) ∧
    (let s := fetching { strict with memOrg := .unresolved } 0#16 0xA596#16
     s.cfg.memOrg ≠ .unified ∧ (s.imem.lookup 0).isSome = true ∧
     ∃ t, step s = .next t ∧ t.mem.lookup 1 = s.mem.lookup 1) :=
  ⟨⟨by decide, _, rfl⟩, by decide, by decide, _, rfl, rfl⟩

/-- Addresses of the program's first and last word and of the words next to them. -/
theorem witness_LaunchSuppliesProgramAndData :
    let inText := fun a : Nat => 5 ≤ a ∧ a < 5 + [0xA596#16, 0xF000#16].length
    inText 5 ∧ inText 6 ∧ ¬ inText 4 ∧ ¬ inText 7 ∧ strict.memOrg ≠ .unified ∧
    { strict with memOrg := .unified }.memOrg = .unified := by decide

/-- A launched machine. -/
def launched (o : MemOrg) : State :=
  State.launch { small with memOrg := o } 0 [0xA596#16, 0xF000#16] [(255, 7#16)]

theorem witness_EveryStepKeepsTheInvariant_separate :
    (launched .separate).Inv ∧ ∃ t, step (launched .separate) = .next t :=
  ⟨⟨by decide, by decide, by decide, by decide, by decide, by decide, by decide, nofun, nofun⟩,
    _, rfl⟩

theorem witness_EveryStepKeepsTheInvariant_unified :
    (launched .unified).Inv ∧ ∃ t, step (launched .unified) = .next t :=
  ⟨⟨by decide, by decide, by decide, by decide, by decide, by decide, by decide, fun _ _ h => h,
    nofun⟩, _, rfl⟩

theorem witness_EveryStepKeepsTheInvariant_unresolved :
    (launched .unresolved).Inv ∧ ∃ t, step (launched .unresolved) = .next t := by
  refine ⟨⟨by decide, by decide, by decide, by decide, by decide, by decide, by decide, nofun,
    ?_⟩, _, rfl⟩
  intro _ a ha
  by_cases h : a = 255
  · subst h; exact absurd ha (by decide)
  · simp [launched, State.launch, small, Memory.loadCells, Memory.write, Memory.lookup, h]

/-- A program that just fits, and data up to the last installed word, right after the program. -/
theorem witness_LaunchMeetsTheInvariant : ∀ o ∈ [MemOrg.separate, .unified, .unresolved],
    let cfg : Config := { small with memOrg := o, memWords := 16 }
    let text := [0xA596#16, 0xF000#16]
    cfg.wf = true ∧
    14 + text.length ≤ (State.launch cfg 14 text [(13, 7#16)]).fetchWords ∧
    (∀ c ∈ [(13, 7#16)], c.1 < cfg.memWords) ∧
    (cfg.memOrg = .unresolved → ∀ c ∈ [(13, 7#16)], ¬ (14 ≤ c.1 ∧ c.1 < 14 + text.length)) := by
  decide

/-- Instructions that write a register and flags, a register alone, LR, and memory. -/
theorem witness_InstructionsChangeOnlyWhatTheyWrite :
    (∃ t, exec (.add .r5 .r3 .r4) (box 1#16 2#16 3#16) = .next t) ∧
    (∃ t, exec (.lui .r5 255) (box 1#16 2#16 3#16) = .next t) ∧
    (∃ t, exec (.bwl (-128)) (box 1#16 2#16 3#16) = .next t) ∧
    (∃ t, exec (.stw .r5 .r3 31) (box 0xFFFF#16 2#16 3#16) = .next t) :=
  ⟨⟨_, rfl⟩, ⟨_, rfl⟩, ⟨_, rfl⟩, ⟨_, rfl⟩⟩

/-- At the last address of a four-bit PC, and of a 16-bit one. -/
theorem witness_PcAdvancesModuloItsWidth :
    (∀ c ∈ [small, strict], c.pcWidth ≤ 16) ∧
    (∃ t, exec (.lui .r5 0) (blank small 15#16) = .next t) ∧ isControl (.lui .r5 0) = false ∧
    (∃ t, exec (.br 1) (blank strict 0xFFFF#16) = .next t) ∧ isControl (.br 1) = true :=
  ⟨by decide, ⟨_, rfl⟩, rfl, ⟨_, rfl⟩, rfl⟩

theorem witness_WritesAreMarked :
    (∃ t, exec (.lui .r5 255) (blank strict 0#16) = .next t) ∧
    (∃ t, exec (.lli .r5 255) (blank strict 0#16) = .next t) ∧
    (∃ t, exec (.add .r5 .r3 .r4) (box 1#16 2#16 3#16) = .next t) ∧
    Reg.r5 ∈ destRegs (.add .r5 .r3 .r4) ∧ Flag.v ∈ flagsWritten (.add .r5 .r3 .r4) ∧
    (∀ rd k, Instr.add .r5 .r3 .r4 ≠ .lui rd k) ∧ (∀ rd k, Instr.add .r5 .r3 .r4 ≠ .lli rd k) ∧
    (∃ t, exec (.bwl 0) (blank strict 0#16) = .next t) ∧ writesLr (.bwl 0) = true :=
  ⟨⟨_, rfl⟩, ⟨_, rfl⟩, ⟨_, rfl⟩, by decide, by decide, by intros; simp, by intros; simp, ⟨_, rfl⟩,
    rfl⟩

/-- A register of which only one byte has been written, a register that comes second, LR, a flag. -/
theorem witness_UnreadableSourcesFault :
    (reads (.not .r5 .r5)).find? (fun y => !((blank strict 0#16).setUpper .r5 0#8).readable y) =
      some (.reg .r5) ∧
    (reads (.stw .r2 .r3 0)).find? (fun y => !(box 0#16 0#16 0#16).readable y) =
      some (.reg .r2) ∧
    (reads .pushLr).find? (fun y => !(stack strict 0#16).readable y) = some .lr ∧
    (reads (.suc .r5 .r3 .r2)).find? (fun y => !(box 0#16 0#16 0#16).readable y) =
      some (.flag .c) := by decide

/-- A store to the last installed word. -/
theorem witness_EveryInstructionCompletes_store :
    let s : State := { box 224#16 0#16 7#16 with cfg := small }
    (∀ x ∈ reads (.stw .r5 .r3 31), s.readable x = true) ∧
    (∀ a, storeAddress (.stw .r5 .r3 31) s = some a →
      a.toNat < s.dataWords ∧ s.textClash a = false) ∧
    (∀ a, loadAddress (.stw .r5 .r3 31) s = some a →
      a.toNat < s.dataWords ∧ s.readable (.memWord a) = true) := by
  refine ⟨by decide, ?_, (fun a h => nomatch h)⟩
  intro a h
  obtain rfl := Option.some.inj h
  decide

/-- A load of the last installed word. -/
theorem witness_EveryInstructionCompletes_load :
    let s : State := { stack small 254#16 with mem := [(255, 7#16)] }
    (∀ x ∈ reads (.pop .r0), s.readable x = true) ∧
    (∀ a, storeAddress (.pop .r0) s = some a →
      a.toNat < s.dataWords ∧ s.textClash a = false) ∧
    (∀ a, loadAddress (.pop .r0) s = some a →
      a.toNat < s.dataWords ∧ s.readable (.memWord a) = true) := by
  refine ⟨by decide, (fun a h => nomatch h), ?_⟩
  intro a h
  obtain rfl := Option.some.inj h
  decide

theorem witness_NothingStopsAFullyInstalledMachine :
    State.reset.cfg.unwrittenRead = .draw ∧ State.reset.cfg.memOrg ≠ .unresolved ∧
    65536 ≤ State.reset.dataWords := by decide

/-- The first address past the installed words: a store, a load, a fetch under each organisation. -/
theorem witness_AccessOutsideInstalledMemoryFaults :
    (let t : State := { box 225#16 0#16 7#16 with cfg := small }
     (∀ x ∈ reads (.stw .r5 .r3 31), t.readable x = true) ∧
     storeAddress (.stw .r5 .r3 31) t = some 256#16 ∧
     (∀ x ∈ reads (.ldw .r5 .r3 31), t.readable x = true) ∧
     loadAddress (.ldw .r5 .r3 31) t = some 256#16 ∧ t.dataWords ≤ (256#16).toNat) ∧
    (let t := blank { small with pcWidth := 16 } 16#16
     t.cfg.memOrg ≠ .unified ∧ t.cfg.imemWords ≤ t.pc.toNat) ∧
    (let t := blank { small with pcWidth := 16, memOrg := .unified } 256#16
     t.cfg.memOrg = .unified ∧ t.cfg.memWords ≤ t.pc.toNat) := by decide

/-- A store into, and a load from, the one program word. -/
theorem witness_OpenProgramTextIsNotData :
    let s := openOrg 0x0100#16 .fault
    s.cfg.memOrg = .unresolved ∧ (s.imem.lookup (0x0102#16).toNat).isSome = true ∧
    (0x0102#16).toNat < s.dataWords ∧
    (∀ x ∈ reads (.stw .r5 .r3 2), s.readable x = true) ∧
    storeAddress (.stw .r5 .r3 2) s = some 0x0102#16 ∧
    (∀ x ∈ reads (.ldw .r5 .r3 2), s.readable x = true) ∧
    loadAddress (.ldw .r5 .r3 2) s = some 0x0102#16 ∧ s.cfg.unwrittenRead = .fault := by decide

/-- An unwritten word and a program word, in a faulting and in a drawing machine; the second load goes
through another register. -/
theorem witness_UnwrittenWordsFaultOrDraw :
    (let s := box 0xFFFF#16 0#16 0#16
     let a := s.dataAddress (s.reg .r3) 1
     s.readable (.reg .r3) = true ∧ a.toNat < s.dataWords ∧ s.mem.lookup a.toNat = none ∧
     s.cfg.unwrittenRead = .fault) ∧
    (let s := openOrg 0x0100#16 .draw
     let a := s.dataAddress (s.reg .r3) 2
     let u := s.setReg .r4 0x0102#16
     s.readable (.reg .r3) = true ∧ a.toNat < s.dataWords ∧ s.textClash a = true ∧
     s.cfg.unwrittenRead = .draw ∧ u.cfg = s.cfg ∧ u.imem = s.imem ∧
     u.mem.lookup a.toNat = s.mem.lookup a.toNat ∧ u.dataAddress (u.reg .r4) 0 = a) := by decide

/-- An unwritten word popped in a faulting machine, and a program word popped and loaded in a drawing one. -/
theorem witness_PopsOfUnwrittenWordsFaultOrDraw :
    (let s := stack small 254#16
     let a := s.reg .r7 + 1#16
     s.cfg.stackOrder = .table ∧ s.readable (.reg .r7) = true ∧ a.toNat < s.dataWords ∧
     s.mem.lookup a.toNat = none ∧ s.cfg.unwrittenRead = .fault) ∧
    (let s := ((openOrg 0x0100#16 .draw).setReg .r7 0x0101#16)
     let a := s.reg .r7 + 1#16
     s.cfg.stackOrder = .table ∧ s.readable (.reg .r7) = true ∧ a.toNat < s.dataWords ∧
     s.textClash a = true ∧ s.cfg.unwrittenRead = .draw ∧ Reg.r2 ≠ .r7 ∧
     s.dataAddress (s.reg .r3) 2 = a) ∧
    (let s := stack { small with stackOrder := .prose, unwrittenRead := .draw } 255#16
     s.readable (.reg .r7) = true ∧ (s.reg .r7).toNat < s.dataWords ∧
     s.mem.lookup (s.reg .r7).toNat = none ∧ s.cfg.unwrittenRead = .draw) := by decide

theorem witness_DrawingMachinesNeverFaultOnReads : State.reset.cfg.unwrittenRead = .draw := rfl

theorem witness_OnlyRelativeTransfersReadPc :
    isRelative (.jmp .r3 31) = false ∧
    (∃ t, exec (.jmp .r3 31) (box 0xFFFF#16 0#16 0#16) = .next t) ∧
    isRelative (.stw .r5 .r3 0) = false ∧
    (∃ t, exec (.stw .r5 .r3 0) (box 0xFFFF#16 0#16 0#16) = .next t) :=
  ⟨rfl, ⟨_, rfl⟩, rfl, _, rfl⟩

/-- A register the instruction does not name, and the destination of a byte load. -/
theorem witness_UnreadRegistersDoNotMatter :
    Source.reg .r7 ∉ reads (.add .r5 .r3 .r4) ∧
    (∃ t, exec (.add .r5 .r3 .r4) (box 1#16 2#16 3#16) = .next t) ∧
    Source.reg .r5 ∉ reads (.lui .r5 255) ∧
    (∃ t, exec (.lui .r5 255) (box 1#16 2#16 3#16) = .next t) :=
  ⟨by decide, ⟨_, rfl⟩, by decide, _, rfl⟩

theorem witness_OnlyCarryInstructionsReadCarry :
    (∀ rd ra rb, Instr.and .r5 .r3 .r4 ≠ .adc rd ra rb) ∧
    (∀ rd ra k, Instr.and .r5 .r3 .r4 ≠ .adci rd ra k) ∧
    (∀ rd ra rb, Instr.and .r5 .r3 .r4 ≠ .suc rd ra rb) ∧
    (∀ rd ra k, Instr.and .r5 .r3 .r4 ≠ .suci rd ra k) ∧
    ∃ t, exec (.and .r5 .r3 .r4) (box 1#16 2#16 3#16) = .next t :=
  ⟨by simp, by simp, by simp, by simp, _, rfl⟩

theorem witness_ImmediatesAreWidened : 31 < 32 ∧ ¬ 31 < 16 ∧ 15 < 16 ∧ 255 < 256 := by decide

/-- The sources of every arithmetic and logic instruction, written, and the flags. -/
def ready : State := boxF 0xFFFF#16 0x8000#16 0x7FFF#16 (cvnz true true true true)

/-- The opcode clauses of the result statements: the words with all operand bits clear and all set. -/
theorem witness_opcode_clauses :
    (∀ op < 32, bits (BitVec.ofNat 16 (op * 2048)) 15 11 = op ∧
      bits (BitVec.ofNat 16 (op * 2048 + 2047)) 15 11 = op) ∧
    (∀ op < 8, bits (BitVec.ofNat 16 (0xF000 + op * 256)) 15 8 = 0xF0 + op ∧
      bits (BitVec.ofNat 16 (0xF0FF + op * 256)) 15 8 = 0xF0 + op) ∧
    (∀ op ∈ [0b010010, 0b010011, 0b000010, 0b000011],
      bits (BitVec.ofNat 16 (op * 1024)) 15 10 = op ∧
      bits (BitVec.ofNat 16 (op * 1024 + 1023)) 15 10 = op) := by decide

theorem witness_AdditionResults : ready.readable (.reg .r3) = true ∧
    ready.readable (.reg .r4) = true ∧ ready.readable (.reg .r5) = true ∧ 31 < 32 ∧ 255 < 256 := by
  decide
theorem witness_CarryAdditionResults : ready.readable (.flag .c) = true ∧
    ready.readable (.reg .r3) = true ∧ ready.readable (.reg .r4) = true ∧ 31 < 32 := by decide
theorem witness_SubtractionResults : ready.readable (.reg .r3) = true ∧
    ready.readable (.reg .r4) = true ∧ ready.readable (.reg .r5) = true ∧ 31 < 32 ∧ 255 < 256 := by
  decide
theorem witness_CarrySubtractionResults : ready.readable (.flag .c) = true ∧
    ready.readable (.reg .r3) = true ∧ ready.readable (.reg .r4) = true ∧ 31 < 32 := by decide
theorem witness_ComparisonResults : ready.readable (.reg .r3) = true ∧
    ready.readable (.reg .r4) = true ∧ ready.cfg.subCarry = .notBorrow ∧ 31 < 32 := by decide
theorem witness_CompareThenBranchDecidesTheOrder : ready.readable (.reg .r3) = true ∧
    ready.readable (.reg .r4) = true := by decide

/-- Low words in R3 and R4, high words in R5 and R3; results in R0 and R1. -/
theorem witness_TwoWordAddition : Reg.r0 ≠ .r5 ∧ Reg.r0 ≠ .r3 ∧ Reg.r1 ≠ .r0 ∧
    ∀ r ∈ [Reg.r3, .r5, .r4, .r3], ready.readable (.reg r) = true := by decide
theorem witness_TwoWordSubtraction : Reg.r0 ≠ .r5 ∧ Reg.r0 ≠ .r3 ∧ Reg.r1 ≠ .r0 ∧
    ∀ r ∈ [Reg.r3, .r5, .r4, .r3], ready.readable (.reg r) = true := by decide

theorem witness_LogicResults : ready.readable (.reg .r3) = true ∧
    ready.readable (.reg .r4) = true ∧ 15 < 16 ∧ ready.readable (.reg .r0) = false := by decide
theorem witness_ShiftResults : 0 < 16 ∧ 15 < 16 ∧ ready.readable (.reg .r3) = true := by decide
theorem witness_ByteLoadResults : 0 < 256 ∧ 255 < 256 := by decide
theorem witness_LuiAndLliLoadAConstant : 0 < 256 ∧ 255 < 256 := by decide

/-- Each clause of LoadResult: base unread, first address past memory, last word unwritten, last word
written. -/
theorem witness_LoadResult :
    (blank small 0#16).readable (.reg .r3) = false ∧
    (let s : State := { box 225#16 0#16 0#16 with cfg := small }
     s.readable (.reg .r3) = true ∧
     s.dataWords ≤ (s.reg .r3 + extImm5 s.cfg.imm5Mem 31).toNat) ∧
    (let s : State := { box 224#16 0#16 0#16 with cfg := small }
     let a := s.reg .r3 + extImm5 s.cfg.imm5Mem 31
     s.readable (.reg .r3) = true ∧ a.toNat < s.dataWords ∧ s.textClash a = false ∧
     s.mem.lookup a.toNat = none ∧ s.cfg.unwrittenRead = .fault) ∧
    (let s : State := { box 224#16 0#16 0#16 with cfg := small, mem := [(255, 7#16)] }
     let a := s.reg .r3 + extImm5 s.cfg.imm5Mem 31
     s.readable (.reg .r3) = true ∧ a.toNat < s.dataWords ∧ s.textClash a = false ∧
     s.mem.lookup a.toNat = some 7#16) := by decide

/-- Each clause of StoreResult: base unread, value unread, first address past memory, program text of
an open organisation, last word. -/
theorem witness_StoreResult :
    (blank small 0#16).readable (.reg .r3) = false ∧
    (let s := box 0#16 0#16 0#16
     s.readable (.reg .r3) = true ∧ s.readable (.reg .r2) = false) ∧
    (let s : State := { box 225#16 0#16 0#16 with cfg := small }
     s.readable (.reg .r3) = true ∧ s.readable (.reg .r5) = true ∧
     s.dataWords ≤ (s.reg .r3 + extImm5 s.cfg.imm5Mem 31).toNat) ∧
    (let s := openOrg 0x0100#16 .fault
     let a := s.reg .r3 + extImm5 s.cfg.imm5Mem 2
     s.readable (.reg .r3) = true ∧ s.readable (.reg .r5) = true ∧
     a.toNat < s.dataWords ∧ s.textClash a = true) ∧
    (let s : State := { box 224#16 0#16 0#16 with cfg := small }
     let a := s.reg .r3 + extImm5 s.cfg.imm5Mem 31
     s.readable (.reg .r3) = true ∧ s.readable (.reg .r5) = true ∧
     a.toNat < s.dataWords ∧ s.textClash a = false) := by decide

/-- The last word of the address space, stored through one base and loaded through another. -/
theorem witness_LoadReturnsTheLastStore :
    ∃ t, exec (.stw .r5 .r3 0) (box 0xFFFF#16 0xFFFE#16 7#16) = .next t ∧
      t.readable (.reg .r4) = true ∧ t.dataAddress (t.reg .r4) 1 =
        (box 0xFFFF#16 0xFFFE#16 7#16).dataAddress ((box 0xFFFF#16 0xFFFE#16 7#16).reg .r3) 0 :=
  ⟨_, rfl, by decide, by decide⟩

/-- Each clause of UnconditionalTransfers, at a four-bit and at a 16-bit PC. -/
theorem witness_UnconditionalTransfers :
    small.pcWidth ≤ 16 ∧ strict.pcWidth ≤ 16 ∧
    (let s := (blank small 15#16).setLr 15#16
     s.readable .lr = true ∧ s.lr.toNat < 2 ^ s.cfg.pcWidth) ∧
    (blank small 15#16).readable .lr = false ∧ ready.readable (.reg .r3) = true ∧
    (blank small 15#16).readable (.reg .r3) = false ∧ 31 < 32 := by decide

theorem witness_ConditionalTransfers :
    strict.pcWidth ≤ 16 ∧ ready.readable (.flag .z) = true ∧ ready.readable (.flag .n) = true ∧
    ready.readable (.flag .v) = true := by decide

/-- A call from the last address of a four-bit PC, and a state the call might return from. -/
theorem witness_ReturnGoesAfterTheCall :
    small.pcWidth ≤ 16 ∧ ∃ t, exec (.bwl (-128)) (blank small 15#16) = .next t ∧
      ((t.setReg .r0 7#16).cfg = t.cfg ∧ (t.setReg .r0 7#16).lr = t.lr ∧
        (t.setReg .r0 7#16).written.lr = t.written.lr) :=
  ⟨by decide, _, rfl, rfl, rfl, rfl⟩

theorem witness_EndOfRunRepeatsForEver :
    let s := fetching small 15#16 0xF000#16
    s.pc.toNat < 2 ^ s.cfg.pcWidth ∧ s.ended = true := by decide

/-- A run of one step to the word 0xF000. -/
theorem witness_RunsEndInAFixedPoint :
    (launched .separate).Inv ∧ ∃ t, endsIn 1 (launched .separate) = some t :=
  ⟨witness_EveryStepKeepsTheInvariant_separate.1, _, rfl⟩

/-- Each clause of PushResults under `STACK_ORDER = table`; the last also under prose, where R7 = 0 wraps
to the last address. -/
theorem witness_PushResults :
    (blank small 0#16).readable (.reg .r7) = false ∧
    (let s := stack small 256#16
     s.readable (.reg .r7) = true ∧ s.readable (.reg .r1) = false ∧ s.readable .lr = false) ∧
    (let s := (stack small 256#16).setReg .r1 7#16
     s.readable (.reg .r7) = true ∧ s.readable (.reg .r1) = true ∧
     s.dataWords ≤ (s.reg .r7).toNat) ∧
    (let s : State := ((openOrg 0#16 .fault).setReg .r7 0x0102#16).setLr 3#16
     s.readable (.reg .r7) = true ∧ s.readable .lr = true ∧
     (s.reg .r7).toNat < s.dataWords ∧ s.textClash (s.reg .r7) = true) ∧
    (let s := (stack small 255#16).setLr 3#16
     s.readable (.reg .r7) = true ∧ s.readable .lr = true ∧
     (s.reg .r7).toNat < s.dataWords ∧ s.textClash (s.reg .r7) = false) ∧
    (let s := stack { strict with stackOrder := .prose } 0#16
     s.readable (.reg .r7) = true ∧ (s.reg .r7 - 1#16).toNat < s.dataWords ∧
     s.textClash (s.reg .r7 - 1#16) = false ∧ s.cfg.stackOrder = .prose) := by decide

/-- Each clause of PopResults: R7 unread, first address past memory, last word unwritten, last word
written, under both orders. -/
theorem witness_PopResults :
    (blank small 0#16).readable (.reg .r7) = false ∧
    (let s := stack small 255#16
     s.readable (.reg .r7) = true ∧ s.dataWords ≤ (s.reg .r7 + 1#16).toNat) ∧
    (let s := stack small 254#16
     s.readable (.reg .r7) = true ∧ (s.reg .r7 + 1#16).toNat < s.dataWords ∧
     s.textClash (s.reg .r7 + 1#16) = false ∧ s.mem.lookup (s.reg .r7 + 1#16).toNat = none ∧
     s.cfg.unwrittenRead = .fault) ∧
    (let s : State := { stack small 254#16 with mem := [(255, 0xFFFF#16)] }
     s.readable (.reg .r7) = true ∧ (s.reg .r7 + 1#16).toNat < s.dataWords ∧
     s.textClash (s.reg .r7 + 1#16) = false ∧
     s.mem.lookup (s.reg .r7 + 1#16).toNat = some 0xFFFF#16 ∧ Reg.r2 ≠ .r7) ∧
    (let s : State := { stack { small with stackOrder := .prose } 255#16 with
       mem := [(255, 0xFFFF#16)] }
     s.readable (.reg .r7) = true ∧ (s.reg .r7).toNat < s.dataWords ∧
     s.textClash (s.reg .r7) = false ∧ s.mem.lookup (s.reg .r7).toNat = some 0xFFFF#16) := by decide

theorem witness_PopUndoesPush :
    (∃ t, exec (.push .r7) (stack strict 0#16) = .next t) ∧ Reg.r2 ≠ .r7 ∧
    (let s := (stack { small with stackOrder := .prose } 0x0100#16).setLr 15#16
     (∃ t, exec .pushLr s = .next t) ∧ s.lr.toNat < 2 ^ s.cfg.pcWidth) :=
  ⟨⟨_, rfl⟩, by decide, ⟨_, rfl⟩, by decide⟩

/-- The last installed instruction word, supplied by nothing, under each organisation and each value of
`UNWRITTEN_READ`; the later state has a register written. -/
theorem witness_UnsuppliedTextFaultsOrDraws :
    ∀ c ∈ [small, { small with unwrittenRead := .draw }, { small with memOrg := .unresolved },
      { small with memOrg := .unresolved, unwrittenRead := .draw },
      { small with memOrg := .unified, memWords := 16 },
      { small with memOrg := .unified, memWords := 16, unwrittenRead := .draw }],
      let s := blank c 15#16
      let t := s.setReg .r0 7#16
      s.pc.toNat < s.fetchWords ∧ s.imem.lookup s.pc.toNat = none ∧
      (s.cfg.memOrg = .unified → s.mem.lookup s.pc.toNat = none) ∧
      t.cfg = s.cfg ∧ t.imem = s.imem ∧ t.pc = s.pc ∧
      (s.cfg.memOrg = .separate ∨ t.mem.lookup s.pc.toNat = s.mem.lookup s.pc.toNat) := by decide

theorem witness_ReturnAddressAsData :
    let s : State := { stack small 255#16 with pc := 15#16 }
    s.cfg.pcWidth ≤ 16 ∧ s.readable (.reg .r7) = true ∧
    (s.pushAddress (s.reg .r7)).toNat < s.dataWords ∧
    s.textClash (s.pushAddress (s.reg .r7)) = false := by decide

end Sys2Proof.Tests
end

section
/-! SUPPORT. The rules of the invariant (R7, R25, R26, R28, R32, R52, R58, R63): each operation on
the state keeps it, hence each instruction and each step. -/

namespace Sys2Proof.Machine

/-! ### What every next state of an outcome satisfies -/

/-- If the outcome goes on, it goes on with a state of which `P` holds. -/
def OnNext (P : State → Prop) (o : Out) : Prop := ∀ t, o = .next t → P t

namespace OnNext

variable {P : State → Prop} {s : State}

theorem next (h : P s) : OnNext P (.next s) := by
  rintro t ⟨⟩
  exact h

theorem retire (h : P s.advance) : OnNext P (retire s) := next h

theorem branchIf {taken : Bool} {off : Int} (ht : P (s.setPc (s.branchTarget off)))
    (hf : P s.advance) : OnNext P (branchIf taken off s) := by
  intro t h
  obtain rfl := branchIf_next_iff.1 h
  split
  · exact ht
  · exact hf

theorem readReg {r : Reg} {k : Word → Out} (h : ∀ w, OnNext P (k w)) :
    OnNext P (readReg s r k) :=
  fun t ht => h _ t (readReg_next_iff.1 ht).2

theorem readLr {k : Word → Out} (h : ∀ w, OnNext P (k w)) : OnNext P (readLr s k) :=
  fun t ht => h _ t (readLr_next_iff.1 ht).2

theorem readFlag {f : Flag} {k : Bool → Out} (h : ∀ b, OnNext P (k b)) :
    OnNext P (readFlag s f k) :=
  fun t ht => h _ t (readFlag_next_iff.1 ht).2

theorem memRead {a : Word} {k : Word → Out} (h : ∀ w, OnNext P (k w)) :
    OnNext P (memRead s a k) := by
  intro t ht
  obtain ⟨-, w, -, hk⟩ := memRead_next_iff.1 ht
  exact h w t hk

theorem memWrite {a w : Word} {k : State → Out}
    (h : s.installed a = true → s.textClash a = false → OnNext P (k (s.setMem a w))) :
    OnNext P (memWrite s a w k) := by
  intro t ht
  obtain ⟨hi, hc, hk⟩ := memWrite_next_iff.1 ht
  exact h hi hc t hk

end OnNext

/-! ### Operations on the state -/

/-- While `MEM_ORG` is kept open, an address clear of the program is one the launch supplied no
instruction word at (R63). -/
theorem textClash_eq_false_iff {s : State} {a : Word} :
    s.textClash a = false ↔ (s.cfg.memOrg = .unresolved → s.imem.lookup a.toNat = none) := by
  simp [State.textClash]

namespace State.Inv

variable {s t : State}

/-- The invariant speaks of the parameters, PC, LR and the two memories alone. -/
theorem congr (hs : s.Inv) (hcfg : t.cfg = s.cfg) (hpc : t.pc = s.pc) (hlr : t.lr = s.lr)
    (himem : t.imem = s.imem) (hmem : t.mem = s.mem) : t.Inv := by
  obtain ⟨h₁, h₂, h₃, h₄, h₅, h₆, h₇, h₈, h₉⟩ := hs
  constructor <;> simpa only [fetchWords, hcfg, hpc, hlr, himem, hmem]

theorem setReg (hs : s.Inv) (r : Reg) (w : Word) : (s.setReg r w).Inv :=
  hs.congr rfl rfl rfl rfl rfl

theorem setUpper (hs : s.Inv) (r : Reg) (b : Byte) : (s.setUpper r b).Inv :=
  hs.congr rfl rfl rfl rfl rfl

theorem setLower (hs : s.Inv) (r : Reg) (b : Byte) : (s.setLower r b).Inv :=
  hs.congr rfl rfl rfl rfl rfl

theorem setFlags (hs : s.Inv) (f : Flags) : (s.setFlags f).Inv := hs.congr rfl rfl rfl rfl rfl

theorem setZ (hs : s.Inv) (b : Bool) : (s.setZ b).Inv := hs.congr rfl rfl rfl rfl rfl

theorem setResult (hs : s.Inv) (rd : Reg) (r : AluResult) : (s.setResult rd r).Inv :=
  (hs.setReg rd r.value).setFlags r.flags

theorem setLogic (hs : s.Inv) (rd : Reg) (r : Word) : (s.setLogic rd r).Inv :=
  (hs.setReg rd r).setZ _

theorem afterFetch (hs : s.Inv) : s.afterFetch.Inv :=
  hs.congr s.afterFetch_cfg s.afterFetch_pc s.afterFetch_lr s.afterFetch_imem s.afterFetch_mem

theorem setPc (hs : s.Inv) (w : Word) : (s.setPc w).Inv :=
  { hs with pc_width := s.truncPc_lt w }

theorem advance (hs : s.Inv) : s.advance.Inv := hs.setPc _

theorem setLr (hs : s.Inv) (w : Word) : (s.setLr w).Inv :=
  { hs with lr_width := s.truncPc_lt w }

/-- A store keeps the invariant where R58 and R63 let it happen. -/
theorem setMem (hs : s.Inv) {a : Word} (hi : s.installed a = true) (hc : s.textClash a = false)
    (w : Word) : (s.setMem a w).Inv where
  cfg_wf := hs.cfg_wf
  pc_width := hs.pc_width
  lr_width := hs.lr_width
  mem_wf := Memory.wf_write s.mem a.toNat w hs.mem_wf
  imem_wf := hs.imem_wf
  mem_installed :=
    have ha : a.toNat < s.cfg.memWords := (installed_iff.1 hi).trans_le (dataWords_le s)
    Memory.below_write s.mem s.cfg.memWords a.toNat w ha hs.mem_installed
  imem_installed := hs.imem_installed
  launch_listed := by
    intro hu b hb
    rw [setMem_mem, Memory.lookup_write]
    split
    · rfl
    · exact hs.launch_listed hu b hb
  text_apart := by
    intro hu b hb
    have hne : b ≠ a.toNat := by
      rintro rfl
      rw [setMem_imem, textClash_eq_false_iff.1 hc hu] at hb
      cases hb
    rw [setMem_mem, Memory.lookup_write_of_ne s.mem w hne]
    exact hs.text_apart hu b hb

end State.Inv

/-! ### Instructions and steps -/

/-- Every instruction keeps the invariant: PC and LR are only written reduced to their width, memory
only where a store may go, and the parameters and the program text not at all. -/
theorem exec_keeps_inv {s : State} (hs : s.Inv) (i : Instr) : OnNext State.Inv (exec i s) := by
  have result (rd : Reg) (r : AluResult) : OnNext State.Inv (retire (s.setResult rd r)) :=
    .retire (hs.setResult rd r).advance
  have compare (f : Flags) : OnNext State.Inv (retire (s.setFlags f)) :=
    .retire (hs.setFlags f).advance
  have logic (rd : Reg) (w : Word) : OnNext State.Inv (retire (s.setLogic rd w)) :=
    .retire (hs.setLogic rd w).advance
  have move (rd : Reg) (w : Word) : OnNext State.Inv (retire (s.setReg rd w)) :=
    .retire (hs.setReg rd w).advance
  have jump (w : Word) : OnNext State.Inv (.next (s.setPc w)) := .next (hs.setPc w)
  have branch (taken : Bool) (off : Int) : OnNext State.Inv (branchIf taken off s) :=
    .branchIf (hs.setPc _) hs.advance
  cases i <;> simp only [exec]
  case add | sub => exact .readReg fun _ => .readReg fun _ => result _ _
  case addi | addib | neg | subi | subib => exact .readReg fun _ => result _ _
  case adc => exact .readReg fun _ => .readReg fun _ => .readFlag fun _ => result _ _
  case adci => exact .readReg fun _ => .readFlag fun _ => result _ _
  case suc => exact .readFlag fun _ => .readReg fun _ => .readReg fun _ => result _ _
  case suci => exact .readFlag fun _ => .readReg fun _ => result _ _
  case cmp => exact .readReg fun _ => .readReg fun _ => compare _
  case cmpi => exact .readReg fun _ => compare _
  case and | or | xor | nand | nor => exact .readReg fun _ => .readReg fun _ => logic _ _
  case not => exact .readReg fun _ => logic _ _
  case lsl | lsr | asr => exact .readReg fun _ => move _ _
  case ldw => exact .readReg fun _ => .memRead fun _ => move _ _
  case stw =>
    exact .readReg fun _ => .readReg fun d => .memWrite fun hi hc =>
      .retire (hs.setMem hi hc d).advance
  case lui => exact .retire (hs.setUpper _ _).advance
  case lli => exact .retire (hs.setLower _ _).advance
  case br => exact branch _ _
  case bne | be => exact .readFlag fun _ => branch _ _
  case blt | bge => exact .readFlag fun _ => .readFlag fun _ => branch _ _
  case bwl => exact .next ((hs.setLr _).setPc _)
  case ret => exact .readLr fun _ => jump _
  case jmp => exact .readReg fun _ => jump _
  case push =>
    exact .readReg fun _ => .readReg fun d => .memWrite fun hi hc =>
      .retire ((hs.setMem hi hc d).setReg .r7 _).advance
  case pushLr =>
    exact .readReg fun _ => .readLr fun d => .memWrite fun hi hc =>
      .retire ((hs.setMem hi hc d).setReg .r7 _).advance
  case pop =>
    exact .readReg fun _ => .memRead fun _ => .retire ((hs.setReg .r7 _).setReg _ _).advance
  case popLr =>
    exact .readReg fun _ => .memRead fun _ => .retire ((hs.setReg .r7 _).setLr _).advance

theorem step_keeps_inv {s t : State} (hs : s.Inv) (h : step s = .next t) : t.Inv := by
  obtain ⟨-, w, i, -, -, hx⟩ := step_next h
  exact exec_keeps_inv hs.afterFetch i t hx

/-- Settles O13: a step is a fetch, which changes no field the invariant speaks of, and one
instruction, which keeps it. -/
theorem everyStepKeepsTheInvariant : Obligations.EveryStepKeepsTheInvariant :=
  fun _ _ => step_keeps_inv

end Sys2Proof.Machine
end

section
/-! SUPPORT. What a launch loads (R230), and that a launch that fits meets the invariant. -/

namespace Sys2Proof.Machine

namespace Memory

/-- Data words list installed addresses only if each of them does. -/
theorem below_loadCells (cells : List (Nat × Word)) (m : Memory) (limit : Nat)
    (hm : m.below limit = true) (h : ∀ c ∈ cells, c.1 < limit) :
    (m.loadCells cells).below limit = true := by
  induction cells generalizing m with
  | nil => exact hm
  | cons c rest ih =>
    obtain ⟨hc, hrest⟩ := List.forall_mem_cons.1 h
    exact ih _ (below_write m limit c.1 c.2 hc hm) hrest

/-- Data words leave every address they do not name alone. -/
theorem lookup_loadCells_of_not_named (cells : List (Nat × Word)) (m : Memory) (a : Nat)
    (h : ∀ c ∈ cells, c.1 ≠ a) : (m.loadCells cells).lookup a = m.lookup a := by
  induction cells generalizing m with
  | nil => rfl
  | cons c rest ih =>
    obtain ⟨hc, hrest⟩ := List.forall_mem_cons.1 h
    exact (ih _ hrest).trans (lookup_write_of_ne m c.2 hc.symm)

end Memory

namespace State

variable {cfg : Config} {base : Nat} {text : List Word} {data : List (Nat × Word)}

@[simp] theorem launch_cfg : (launch cfg base text data).cfg = cfg := rfl
@[simp] theorem launch_pc : (launch cfg base text data).pc = cfg.resetPc := rfl
@[simp] theorem launch_lr : (launch cfg base text data).lr = resetWord := rfl

theorem launch_imem_of_not_unified (h : cfg.memOrg ≠ .unified) :
    (launch cfg base text data).imem = Memory.load [] base text := by
  unfold launch; split <;> simp_all

theorem launch_mem_of_not_unified (h : cfg.memOrg ≠ .unified) :
    (launch cfg base text data).mem = Memory.loadCells [] data := by
  unfold launch; split <;> simp_all

theorem launch_imem_of_unified (h : cfg.memOrg = .unified) :
    (launch cfg base text data).imem = (Memory.loadCells [] data).load base text := by
  simp [launch, h]

/-- A unified memory is one array: the launch places the same words in both fields (R32). -/
theorem launch_mem_of_unified (h : cfg.memOrg = .unified) :
    (launch cfg base text data).mem = (launch cfg base text data).imem := by
  simp [launch, h]

theorem fetchWords_of_unified {s : State} (h : s.cfg.memOrg = .unified) :
    s.fetchWords = s.cfg.memWords := by
  simp [fetchWords, h]

theorem launch_imem_wf : (launch cfg base text data).imem.wf = true := by
  by_cases hu : cfg.memOrg = .unified
  · rw [launch_imem_of_unified hu]
    exact Memory.wf_load _ _ _ (Memory.wf_loadCells _ _ rfl)
  · rw [launch_imem_of_not_unified hu]
    exact Memory.wf_load _ _ _ rfl

theorem launch_mem_wf : (launch cfg base text data).mem.wf = true := by
  by_cases hu : cfg.memOrg = .unified
  · rw [launch_mem_of_unified hu]
    exact launch_imem_wf
  · rw [launch_mem_of_not_unified hu]
    exact Memory.wf_loadCells _ _ rfl

theorem launch_imem_below (ht : base + text.length ≤ (launch cfg base text data).fetchWords)
    (hd : ∀ c ∈ data, c.1 < cfg.memWords) :
    (launch cfg base text data).imem.below (launch cfg base text data).fetchWords = true := by
  by_cases hu : cfg.memOrg = .unified
  · rw [launch_imem_of_unified hu]
    rw [fetchWords_of_unified hu] at ht ⊢
    exact Memory.below_load _ _ _ _ (Memory.below_loadCells _ _ _ rfl hd) ht
  · rw [launch_imem_of_not_unified hu]
    exact Memory.below_load _ _ _ _ rfl ht

theorem launch_mem_below (ht : base + text.length ≤ (launch cfg base text data).fetchWords)
    (hd : ∀ c ∈ data, c.1 < cfg.memWords) :
    (launch cfg base text data).mem.below cfg.memWords = true := by
  by_cases hu : cfg.memOrg = .unified
  · have h := launch_imem_below ht hd
    rwa [fetchWords_of_unified hu, ← launch_mem_of_unified hu] at h
  · rw [launch_mem_of_not_unified hu]
    exact Memory.below_loadCells _ _ _ rfl hd

/-- Unless memory is unified, data words clear of the program text leave its addresses unlisted in
data memory. -/
theorem launch_text_apart (hu : cfg.memOrg ≠ .unified)
    (hapart : ∀ c ∈ data, ¬ (base ≤ c.1 ∧ c.1 < base + text.length)) {a : Nat}
    (ha : ((launch cfg base text data).imem.lookup a).isSome = true) :
    (launch cfg base text data).mem.lookup a = none := by
  have hin : base ≤ a ∧ a < base + text.length := by
    rw [launch_imem_of_not_unified hu, Memory.lookup_load] at ha
    by_contra hout
    simp [hout] at ha
  rw [launch_mem_of_not_unified hu, Memory.lookup_loadCells_of_not_named, Memory.lookup_nil]
  rintro c hc rfl
  exact hapart c hc hin

end State

/-- Settles O15, clause by clause from what the launch loads. -/
theorem launchMeetsTheInvariant : Obligations.LaunchMeetsTheInvariant := by
  intro cfg base text data hcfg htext hdata hapart
  have hpc : cfg.resetPc.toNat < 2 ^ cfg.pcWidth := by
    simp only [Config.wf, decide_eq_true_eq] at hcfg
    omega
  have hsplit (h : cfg.memOrg = .unresolved) : cfg.memOrg ≠ .unified := by simp [h]
  exact
    { cfg_wf := hcfg
      pc_width := hpc
      lr_width := Nat.two_pow_pos _
      mem_wf := State.launch_mem_wf
      imem_wf := State.launch_imem_wf
      mem_installed := State.launch_mem_below htext hdata
      imem_installed := State.launch_imem_below htext hdata
      launch_listed := fun hu a ha => by rwa [State.launch_mem_of_unified (cfg := cfg) hu]
      text_apart := fun hu a => State.launch_text_apart (hsplit hu) (hapart hu) }

/-- Settles O14: reset is the launch of nothing. -/
theorem resetMeetsTheInvariant : Obligations.ResetMeetsTheInvariant := by
  rw [Obligations.ResetMeetsTheInvariant, ← State.launch_nothing]
  exact launchMeetsTheInvariant resetConfig 0 [] [] (by decide) (Nat.zero_le _) nofun nofun

end Sys2Proof.Machine
end

section
/-! SUPPORT. The widened immediates as numbers (R10, R89 to R91). -/

namespace Sys2Proof.Machine

theorem toNat_extImm5_zero {k : Nat} (h : k < 32) : (extImm5 .zero k).toNat = k := by
  simp only [extImm5, BitVec.toNat_setWidth, BitVec.toNat_ofNat]
  omega

/-- Widening by the sign keeps the five-bit two's-complement number. -/
theorem toInt_extImm5_sign {k : Nat} (h : k < 32) :
    (extImm5 .sign k).toInt = if k < 16 then (k : Int) else (k : Int) - 32 := by
  have hk : (BitVec.ofNat 5 k).toNat = k := Nat.mod_eq_of_lt h
  rw [extImm5, BitVec.toInt_signExtend_of_le (by decide), BitVec.toInt_eq_toNat_cond, hk]
  split <;> split <;> omega

theorem toNat_zextImm8 {k : Nat} (h : k < 256) : (zextImm8 k).toNat = k := by
  simp only [zextImm8, BitVec.toNat_setWidth, BitVec.toNat_ofNat]
  omega

/-- Settles O32. -/
theorem immediatesAreWidened : Obligations.ImmediatesAreWidened :=
  ⟨fun _ h => ⟨toNat_extImm5_zero h, toInt_extImm5_sign h⟩, fun _ h => toNat_zextImm8 h⟩

end Sys2Proof.Machine
end

section
/-! SUPPORT. The normal form of an instruction: its checks, in the order of R213, and then one next
state. What is true of every instruction is read off this form. -/

namespace Sys2Proof.Machine

/-! ### The checks -/

/-- Goes on if every source may be read; else faults on the first that may not (R36, R213). -/
def whenReadable (s : State) : List Source → Out → Out
  | [], o => o
  | x :: xs, o => if s.readable x then whenReadable s xs o else .fault (.unwrittenRead x)

/-- Goes on if the word to load, where there is one, is installed and has a value (R58, R36). -/
def whenLoadable (s : State) (addr : Option Word) (o : Out) : Out :=
  match addr with
  | none => o
  | some a =>
    if s.installed a then
      if s.readable (.memWord a) then o else .fault (.unwrittenRead (.memWord a))
    else .fault (.memoryOutOfRange a .data)

/-- Goes on if the word to store to, where there is one, is installed and no program text (R58,
R63). -/
def whenStorable (s : State) (addr : Option Word) (o : Out) : Out :=
  match addr with
  | none => o
  | some a =>
    if s.installed a then
      if s.textClash a then .refused (.storeToProgramText a) else o
    else .fault (.memoryOutOfRange a .data)

/-! ### The effect -/

/-- The word a load of `a` brings, where it brings one. -/
def State.loaded (s : State) (a : Word) : Word := (s.loadValue a).getD 0#16

/-- The state with everything the instruction writes but PC. -/
def afterWrites (i : Instr) (s : State) : State :=
  match i with
  | .add rd ra rb => s.setResult rd (addFlags (s.reg ra) (s.reg rb) false)
  | .addi rd ra k => s.setResult rd (addFlags (s.reg ra) (s.aluImm k) false)
  | .addib rd k => s.setResult rd (addFlags (s.reg rd) (zextImm8 k) false)
  | .adc rd ra rb => s.setResult rd (addFlags (s.reg ra) (s.reg rb) s.flags.c)
  | .adci rd ra k => s.setResult rd (addFlags (s.reg ra) (s.aluImm k) s.flags.c)
  | .neg rd ra => s.setResult rd (subFlags s.cfg.subCarry 0#16 (s.reg ra) true)
  | .sub rd ra rb => s.setResult rd (subFlags s.cfg.subCarry (s.reg ra) (s.reg rb) true)
  | .subi rd ra k => s.setResult rd (subFlags s.cfg.subCarry (s.reg ra) (s.aluImm k) true)
  | .subib rd k => s.setResult rd (subFlags s.cfg.subCarry (s.reg rd) (zextImm8 k) true)
  | .suc rd ra rb => s.setResult rd
      (subFlags s.cfg.subCarry (s.reg ra) (s.reg rb) (carryIn s.cfg.subCarry s.flags.c))
  | .suci rd ra k => s.setResult rd
      (subFlags s.cfg.subCarry (s.reg ra) (s.aluImm k) (carryIn s.cfg.subCarry s.flags.c))
  | .cmp ra rb => s.setFlags (subFlags s.cfg.subCarry (s.reg ra) (s.reg rb) true).flags
  | .cmpi ra k => s.setFlags (subFlags s.cfg.subCarry (s.reg ra) (s.aluImm k) true).flags
  | .and rd ra rb => s.setLogic rd (s.reg ra &&& s.reg rb)
  | .or rd ra rb => s.setLogic rd (s.reg ra ||| s.reg rb)
  | .xor rd ra rb => s.setLogic rd (s.reg ra ^^^ s.reg rb)
  | .not rd ra => s.setLogic rd (~~~(s.reg ra))
  | .nand rd ra rb => s.setLogic rd (~~~(s.reg ra &&& s.reg rb))
  | .nor rd ra rb => s.setLogic rd (~~~(s.reg ra ||| s.reg rb))
  | .lsl rd ra k => s.setReg rd (s.reg ra <<< k)
  | .lsr rd ra k => s.setReg rd (s.reg ra >>> k)
  | .asr rd ra k => s.setReg rd ((s.reg ra).sshiftRight k)
  | .ldw rd ra k => s.setReg rd (s.loaded (s.dataAddress (s.reg ra) k))
  | .stw rd ra k => s.setMem (s.dataAddress (s.reg ra) k) (s.reg rd)
  | .lui rd k => s.setUpper rd (BitVec.ofNat 8 k)
  | .lli rd k => s.setLower rd (BitVec.ofNat 8 k)
  | .bwl _ => s.setLr (s.pc + 1#16)
  | .br _ | .bne _ | .be _ | .blt _ | .bge _ | .ret | .jmp _ _ => s
  | .push ra => (s.setMem (s.pushAddress (s.reg .r7)) (s.reg ra)).setReg .r7 (s.reg .r7 - 1#16)
  | .pushLr => (s.setMem (s.pushAddress (s.reg .r7)) s.lr).setReg .r7 (s.reg .r7 - 1#16)
  | .pop ra =>
    (s.setReg .r7 (s.reg .r7 + 1#16)).setReg ra (s.loaded (s.popAddress (s.reg .r7)))
  | .popLr => (s.setReg .r7 (s.reg .r7 + 1#16)).setLr (s.loaded (s.popAddress (s.reg .r7)))

/-- Where a relative branch goes on, before the reduction modulo 2^`PC_WIDTH` (R180). -/
def State.branchTo (s : State) (taken : Bool) (off : Int) : Word :=
  if taken then s.branchTarget off else s.pc + 1#16

/-- Where the instruction goes on, before the reduction modulo 2^`PC_WIDTH` (R26). -/
def nextPc (i : Instr) (s : State) : Word :=
  match i with
  | .br off | .bwl off => s.branchTarget off
  | .bne off => s.branchTo (!s.flags.z) off
  | .be off => s.branchTo s.flags.z off
  | .blt off => s.branchTo (s.flags.n != s.flags.v) off
  | .bge off => s.branchTo (s.flags.n == s.flags.v) off
  | .ret => s.lr
  | .jmp ra k => s.jumpTarget (s.reg ra) k
  | _ => s.pc + 1#16

/-- The state the instruction goes on with, if it goes on. -/
def effect (i : Instr) (s : State) : State := (afterWrites i s).setPc (nextPc i s)

/-! ### An instruction is its checks and then its effect -/

theorem branchIf_eq (taken : Bool) (off : Int) (s : State) :
    branchIf taken off s = .next (s.setPc (s.branchTo taken off)) := by
  cases taken <;> rfl

/-- A load that goes on does so with the word it brings. -/
theorem memRead_eq (s : State) (a : Word) (k : Word → Out) :
    memRead s a k = whenLoadable s (some a) (k (s.loaded a)) := by
  cases h : s.loadValue a <;> simp [memRead, whenLoadable, State.readable, State.loaded, h]

theorem exec_eq (i : Instr) (s : State) :
    exec i s = whenReadable s (reads i)
      (whenLoadable s (loadAddress i s)
        (whenStorable s (storeAddress i s) (.next (effect i s)))) := by
  cases i
  case ldw => simp only [exec, execLdw, memRead_eq]; rfl
  case pop => simp only [exec, execPop, memRead_eq]; rfl
  case popLr => simp only [exec, execPopLr, memRead_eq]; rfl
  case bne => simp only [exec, execBne, branchIf_eq]; rfl
  case be => simp only [exec, execBe, branchIf_eq]; rfl
  case blt => simp only [exec, execBlt, branchIf_eq]; rfl
  case bge => simp only [exec, execBge, branchIf_eq]; rfl
  all_goals rfl

/-! ### What the checks let through -/

theorem whenReadable_of_all {s : State} {xs : List Source} (h : ∀ x ∈ xs, s.readable x = true)
    (o : Out) : whenReadable s xs o = o := by
  induction xs with
  | nil => rfl
  | cons x xs ih =>
    obtain ⟨hx, hxs⟩ := List.forall_mem_cons.1 h
    rw [whenReadable, if_pos hx, ih hxs]

theorem whenReadable_of_find {s : State} {xs : List Source} {x : Source}
    (h : xs.find? (fun y => !s.readable y) = some x) (o : Out) :
    whenReadable s xs o = .fault (.unwrittenRead x) := by
  induction xs with
  | nil => cases h
  | cons y ys ih =>
    cases hy : s.readable y
    · obtain rfl : y = x := by simpa [hy] using h
      simp [whenReadable, hy]
    · rw [whenReadable, if_pos hy, ih (by simpa [hy] using h)]

theorem whenReadable_next_iff {s t : State} {xs : List Source} {o : Out} :
    whenReadable s xs o = .next t ↔ (∀ x ∈ xs, s.readable x = true) ∧ o = .next t := by
  induction xs with
  | nil => simp [whenReadable]
  | cons x xs ih => cases hx : s.readable x <;> simp [whenReadable, hx, ih]

theorem whenLoadable_next_iff {s t : State} {addr : Option Word} {o : Out} :
    whenLoadable s addr o = .next t ↔
      (∀ a, addr = some a → s.installed a = true ∧ s.readable (.memWord a) = true) ∧
        o = .next t := by
  cases addr with
  | none => simp [whenLoadable]
  | some a =>
    cases hi : s.installed a <;> cases hv : s.readable (.memWord a) <;>
      simp [whenLoadable, hi, hv]

theorem whenStorable_next_iff {s t : State} {addr : Option Word} {o : Out} :
    whenStorable s addr o = .next t ↔
      (∀ a, addr = some a → s.installed a = true ∧ s.textClash a = false) ∧ o = .next t := by
  cases addr with
  | none => simp [whenStorable]
  | some a =>
    cases hi : s.installed a <;> cases hc : s.textClash a <;> simp [whenStorable, hi, hc]

/-- Every check of the instruction passes. -/
structure Ready (i : Instr) (s : State) : Prop where
  sources : ∀ x ∈ reads i, s.readable x = true
  load : ∀ a, loadAddress i s = some a → s.installed a = true ∧ s.readable (.memWord a) = true
  store : ∀ a, storeAddress i s = some a → s.installed a = true ∧ s.textClash a = false

/-- What an instruction that goes on did: its checks passed, and this is its effect. -/
theorem exec_next_iff {i : Instr} {s t : State} :
    exec i s = .next t ↔ Ready i s ∧ effect i s = t := by
  rw [exec_eq, whenReadable_next_iff, whenLoadable_next_iff, whenStorable_next_iff]
  constructor
  · rintro ⟨hr, hl, hs, ⟨⟩⟩
    exact ⟨⟨hr, hl, hs⟩, rfl⟩
  · rintro ⟨⟨hr, hl, hs⟩, rfl⟩
    exact ⟨hr, hl, hs, rfl⟩

theorem Ready.exec {i : Instr} {s : State} (h : Ready i s) : exec i s = .next (effect i s) :=
  exec_next_iff.2 ⟨h, rfl⟩

/-- A load of an installed word that has no value faults on it (R36). -/
theorem exec_of_unreadable_word {i : Instr} {s : State} {a : Word}
    (hr : ∀ x ∈ reads i, s.readable x = true) (hl : loadAddress i s = some a)
    (hi : s.installed a = true) (hv : s.readable (.memWord a) = false) :
    exec i s = .fault (.unwrittenRead (.memWord a)) := by
  rw [exec_eq, whenReadable_of_all hr, hl]
  simp [whenLoadable, hi, hv]

/-- Settles O19: reading in order is how the normal form begins. -/
theorem unreadableSourcesFault : Obligations.UnreadableSourcesFault :=
  fun i s _ h => (exec_eq i s).trans (whenReadable_of_find h _)

end Sys2Proof.Machine
end

section
/-! SUPPORT. The frame of the instructions and their marks (R20, R23, R24, R26, R28, R30, R36,
R52). -/

namespace Sys2Proof.Machine

theorem Flag.mem_all (f : Flag) : f ∈ [Flag.c, .v, .n, .z] := by cases f <;> decide

/-! ### Writing one more thing that may be written -/

namespace OnlyWrites

variable {s t : State} {regs : List Reg} {flags : List Flag} {lr : Bool} {stored : Option Word}

theorem refl (s : State) : OnlyWrites s s regs flags lr stored := by
  simp [OnlyWrites]

/-- Every write of a register and of its marks, whole or by the byte. -/
theorem writeReg (h : OnlyWrites s t regs flags lr stored) {r : Reg} (hr : r ∈ regs) (w : Word)
    (m : ByteMarks) :
    OnlyWrites s
      { t with regs := t.regs.set r w
               written := { t.written with regs := t.written.regs.set r m } }
      regs flags lr stored := by
  obtain ⟨hregs, hrest⟩ := h
  refine ⟨fun q hq => ?_, hrest⟩
  have hne : q ≠ r := fun heq => hq (heq ▸ hr)
  simpa [State.reg, hne] using hregs q hq

theorem setReg (h : OnlyWrites s t regs flags lr stored) {r : Reg} (hr : r ∈ regs) (w : Word) :
    OnlyWrites s (t.setReg r w) regs flags lr stored := h.writeReg hr w _

theorem setUpper (h : OnlyWrites s t regs flags lr stored) {r : Reg} (hr : r ∈ regs) (b : Byte) :
    OnlyWrites s (t.setUpper r b) regs flags lr stored := h.writeReg hr _ _

theorem setLower (h : OnlyWrites s t regs flags lr stored) {r : Reg} (hr : r ∈ regs) (b : Byte) :
    OnlyWrites s (t.setLower r b) regs flags lr stored := h.writeReg hr _ _

theorem setFlags (h : OnlyWrites s t regs [.c, .v, .n, .z] lr stored) (f : Flags) :
    OnlyWrites s (t.setFlags f) regs [.c, .v, .n, .z] lr stored := by
  obtain ⟨hregs, -, hrest⟩ := h
  exact ⟨hregs, fun q hq => absurd q.mem_all hq, hrest⟩

theorem setZ (h : OnlyWrites s t regs [.z] lr stored) (b : Bool) :
    OnlyWrites s (t.setZ b) regs [.z] lr stored := by
  obtain ⟨hregs, hflags, hrest⟩ := h
  refine ⟨hregs, fun q hq => ?_, hrest⟩
  have hne : q ≠ .z := fun heq => hq (List.mem_singleton.2 heq)
  simpa [hne] using hflags q hq

theorem setLr (h : OnlyWrites s t regs flags true stored) (w : Word) :
    OnlyWrites s (t.setLr w) regs flags true stored := by
  obtain ⟨hregs, hflags, -, hrest⟩ := h
  exact ⟨hregs, hflags, nofun, hrest⟩

theorem setMem {a : Word} (h : OnlyWrites s t regs flags lr (some a)) (w : Word) :
    OnlyWrites s (t.setMem a w) regs flags lr (some a) := by
  obtain ⟨hregs, hflags, hlr, hmem, hrest⟩ := h
  refine ⟨hregs, hflags, hlr, fun b hb => ?_, hrest⟩
  rw [State.setMem_mem, Memory.lookup_write_of_ne _ _ (hb a rfl)]
  exact hmem b hb

theorem setPc (h : OnlyWrites s t regs flags lr stored) (w : Word) :
    OnlyWrites s (t.setPc w) regs flags lr stored := h

theorem setResult (h : OnlyWrites s t regs [.c, .v, .n, .z] lr stored) {rd : Reg} (hr : rd ∈ regs)
    (r : AluResult) : OnlyWrites s (t.setResult rd r) regs [.c, .v, .n, .z] lr stored :=
  (h.setReg hr r.value).setFlags r.flags

theorem setLogic (h : OnlyWrites s t regs [.z] lr stored) {rd : Reg} (hr : rd ∈ regs) (w : Word) :
    OnlyWrites s (t.setLogic rd w) regs [.z] lr stored :=
  (h.setReg hr w).setZ _

end OnlyWrites

/-! ### The frame -/

/-- The effect of an instruction is within its rows of R24, R28 and R30 and its one store. -/
theorem effect_onlyWrites (i : Instr) (s : State) :
    OnlyWrites s (effect i s) (destRegs i) (flagsWritten i) (writesLr i) (storeAddress i s) := by
  have here (rd : Reg) : rd ∈ [rd] := List.mem_singleton_self rd
  apply OnlyWrites.setPc
  cases i
  case add | addi | addib | adc | adci | neg | sub | subi | subib | suc | suci =>
    exact (OnlyWrites.refl s).setResult (here _) _
  case cmp | cmpi => exact (OnlyWrites.refl s).setFlags _
  case and | or | xor | not | nand | nor => exact (OnlyWrites.refl s).setLogic (here _) _
  case lsl | lsr | asr | ldw => exact (OnlyWrites.refl s).setReg (here _) _
  case lui => exact (OnlyWrites.refl s).setUpper (here _) _
  case lli => exact (OnlyWrites.refl s).setLower (here _) _
  case stw => exact (OnlyWrites.refl s).setMem _
  case push | pushLr => exact ((OnlyWrites.refl s).setMem _).setReg (here _) _
  case pop =>
    exact ((OnlyWrites.refl s).setReg (by simp [destRegs]) _).setReg (by simp [destRegs]) _
  case popLr => exact ((OnlyWrites.refl s).setReg (here _) _).setLr _
  case bwl => exact (OnlyWrites.refl s).setLr _
  case br | bne | be | blt | bge | ret | jmp => exact OnlyWrites.refl s

theorem exec_onlyWrites {i : Instr} {s t : State} (h : exec i s = .next t) :
    OnlyWrites s t (destRegs i) (flagsWritten i) (writesLr i) (storeAddress i s) := by
  obtain ⟨-, rfl⟩ := exec_next_iff.1 h
  exact effect_onlyWrites i s

/-- An instruction whose checks pass completes within its frame. -/
theorem Ready.completes {i : Instr} {s : State} {post : State → Prop} (h : Ready i s)
    (hpost : post (effect i s)) :
    Completes i s (destRegs i) (flagsWritten i) (writesLr i) (storeAddress i s) post :=
  ⟨effect i s, h.exec, effect_onlyWrites i s, hpost⟩

/-- No instruction writes the parameters. -/
@[simp] theorem effect_cfg (i : Instr) (s : State) : (effect i s).cfg = s.cfg := by
  obtain ⟨-, -, -, -, hcfg, -, -⟩ := effect_onlyWrites i s
  exact hcfg

/-- No instruction writes the program text (R32). -/
@[simp] theorem effect_imem (i : Instr) (s : State) : (effect i s).imem = s.imem := by
  obtain ⟨-, -, -, -, -, himem, -⟩ := effect_onlyWrites i s
  exact himem

/-- Settles O16. -/
theorem instructionsChangeOnlyWhatTheyWrite : Obligations.InstructionsChangeOnlyWhatTheyWrite :=
  fun _ _ _ => exec_onlyWrites

/-! ### PC -/

theorem effect_pc (i : Instr) (s : State) : (effect i s).pc = s.truncPc (nextPc i s) :=
  State.truncPc_congr (effect_cfg i s) _

theorem nextPc_of_not_control {i : Instr} (h : isControl i = false) (s : State) :
    nextPc i s = s.pc + 1#16 := by
  cases i
  case br | bne | be | blt | bge | bwl | ret | jmp => cases h
  all_goals rfl

theorem effect_inSequence {i : Instr} (h : isControl i = false) (s : State) :
    InSequence s (effect i s) := by
  rw [InSequence, effect_pc, nextPc_of_not_control h]

theorem State.toNat_truncPc (s : State) (w : Word) :
    (s.truncPc w).toNat = w.toNat % 2 ^ s.cfg.pcWidth :=
  (BitVec.toNat_ofNat _ _).trans (Nat.mod_eq_of_lt ((Nat.mod_le _ _).trans_lt w.isLt))

/-- The next address in sequence, as a number (R26). -/
theorem State.toNat_truncPc_succ {s : State} (hw : s.cfg.pcWidth ≤ 16) (w : Word) :
    (s.truncPc (w + 1#16)).toNat = (w.toNat + 1) % 2 ^ s.cfg.pcWidth := by
  rw [toNat_truncPc, BitVec.toNat_add]
  exact Nat.mod_mod_of_dvd _ (pow_dvd_pow 2 hw)

/-- Settles O17. -/
theorem pcAdvancesModuloItsWidth : Obligations.PcAdvancesModuloItsWidth := by
  intro i s t hw h
  obtain ⟨-, rfl⟩ := exec_next_iff.1 h
  rw [effect_pc]
  refine ⟨fun hc => ?_, fun _ => s.truncPc_lt _⟩
  rw [nextPc_of_not_control hc, State.toNat_truncPc_succ hw]

/-! ### Marks -/

/-- A register that is written is written whole, but for LUI and LLI (R23). -/
theorem effect_marks_regs {i : Instr} (hlui : ∀ rd k, i ≠ .lui rd k)
    (hlli : ∀ rd k, i ≠ .lli rd k) (s : State) :
    ∀ r ∈ destRegs i, (effect i s).written.regs.get r = ⟨true, true⟩ := by
  cases i
  case lui rd k => exact absurd rfl (hlui rd k)
  case lli rd k => exact absurd rfl (hlli rd k)
  case pop ra =>
    intro r hr
    simp only [destRegs, List.mem_cons, List.not_mem_nil, or_false] at hr
    simp only [effect, afterWrites, State.setPc_written, State.setReg_written, Bank.get_set]
    split
    · rfl
    · rw [if_pos (by tauto)]
  all_goals
    simp [destRegs, effect, afterWrites, State.setResult, State.setLogic]

theorem effect_marks_flags (i : Instr) (s : State) :
    ∀ f ∈ flagsWritten i, (effect i s).written.flags.get f = true := by
  cases i
  case add | addi | addib | adc | adci | neg | sub | subi | subib | suc | suci | cmp | cmpi =>
    intro f _
    cases f <;> rfl
  case and | or | xor | not | nand | nor =>
    intro f hf
    obtain rfl := List.mem_singleton.1 hf
    exact Flags.get_set_same s.written.flags .z true
  all_goals nofun

theorem effect_marks_lr {i : Instr} (h : writesLr i = true) (s : State) :
    (effect i s).written.lr = true := by
  cases i
  case bwl | popLr => rfl
  all_goals cases h

/-- A stored word is listed (R36). -/
theorem effect_lists_stored {i : Instr} {s : State} {a : Word} (h : storeAddress i s = some a) :
    ((effect i s).mem.lookup a.toNat).isSome = true := by
  cases i
  case stw | push | pushLr =>
    cases h
    simp [effect, afterWrites]
  all_goals cases h

/-- No mark of a register is taken away (R23). -/
theorem effect_keeps_reg_marks (i : Instr) (s : State) (r : Reg) :
    ((s.written.regs.get r).upper = true → ((effect i s).written.regs.get r).upper = true) ∧
    ((s.written.regs.get r).lower = true → ((effect i s).written.regs.get r).lower = true) := by
  obtain ⟨hframe, -⟩ := effect_onlyWrites i s
  by_cases hr : r ∈ destRegs i
  · cases i
    case lui | lli =>
      obtain rfl := List.mem_singleton.1 hr
      simp [effect, afterWrites]
    all_goals simp [effect_marks_regs (by nofun) (by nofun) s r hr]
  · obtain ⟨-, hmarks⟩ := hframe r hr
    simp [hmarks]

/-- Settles O18: what is written is marked, and the marks of the rest are in the frame. -/
theorem writesAreMarked : Obligations.WritesAreMarked := by
  intro i s t h
  obtain ⟨-, rfl⟩ := exec_next_iff.1 h
  obtain ⟨-, hflags, hlr, hmem, -⟩ := effect_onlyWrites i s
  refine ⟨fun r => (effect_keeps_reg_marks i s r).1, fun r => (effect_keeps_reg_marks i s r).2,
    fun hs => ?_, fun f hs => ?_, fun a hs => ?_, ?_, ?_,
    fun hlui hlli => effect_marks_regs hlui hlli s, effect_marks_flags i s,
    fun hw => effect_marks_lr hw s⟩
  · cases hw : writesLr i
    · rwa [(hlr hw).2]
    · exact effect_marks_lr hw s
  · by_cases hf : f ∈ flagsWritten i
    · exact effect_marks_flags i s f hf
    · rwa [(hflags f hf).2]
  · by_cases ha : ∃ w, storeAddress i s = some w ∧ a = w.toNat
    · obtain ⟨w, hw, rfl⟩ := ha
      exact effect_lists_stored hw
    · rwa [hmem a fun w hw heq => ha ⟨w, hw, heq⟩]
  · rintro rd k rfl
    exact Bank.get_set_same _ _ _
  · rintro rd k rfl
    exact Bank.get_set_same _ _ _

end Sys2Proof.Machine
end

section
/-! SUPPORT. What may be read, and when an instruction completes (R23, R36, R58, R63). -/

namespace Sys2Proof.Machine

/-! ### What may be read -/

theorem State.canRead_iff {s : State} {m : Bool} :
    s.canRead m = true ↔ s.cfg.unwrittenRead = .draw ∨ m = true := by
  simp [canRead]

theorem ByteMarks.whole_iff {m : ByteMarks} :
    m.whole = true ↔ m.upper = true ∧ m.lower = true := by
  simp [whole]

/-- Settles O20. -/
theorem readableMeansWrittenOrDrawn : Obligations.ReadableMeansWrittenOrDrawn :=
  fun _ => ⟨fun _ => State.canRead_iff.trans (or_congr_right ByteMarks.whole_iff),
    State.canRead_iff, fun _ => State.canRead_iff⟩

/-- Where unwritten reads draw, everything may be read (R36). -/
theorem State.readable_of_draw {s : State} (h : s.cfg.unwrittenRead = .draw) (x : Source) :
    s.readable x = true := by
  cases x with
  | reg r => exact canReadReg_of_draw h r
  | lr => exact canReadLr_of_draw h
  | flag f => exact canReadFlag_of_draw h f
  | memWord a =>
    obtain ⟨w, hw⟩ := loadValue_of_draw h a
    simp [readable, hw]
  | text a => exact canRead_of_draw h _

/-! ### Completion -/

/-- Settles O21: the hypotheses are the checks. -/
theorem everyInstructionCompletes : Obligations.EveryInstructionCompletes := by
  intro i s hr hs hl
  have ready : Ready i s :=
    { sources := hr
      load := fun a ha => (hl a ha).imp_left installed_iff.2
      store := fun a ha => (hs a ha).imp_left installed_iff.2 }
  exact ⟨_, ready.exec⟩

/-- Settles O22. -/
theorem nothingStopsAFullyInstalledMachine : Obligations.NothingStopsAFullyInstalledMachine := by
  intro i s hd ho hw
  have installed (a : Word) : s.installed a = true := installed_iff.2 (a.isLt.trans_le hw)
  have ready : Ready i s :=
    { sources := fun x _ => State.readable_of_draw hd x
      load := fun a _ => ⟨installed a, State.readable_of_draw hd _⟩
      store := fun a _ => ⟨installed a, textClash_eq_false_iff.2 fun h => absurd h ho⟩ }
  exact ⟨_, ready.exec⟩

/-! ### No fault for want of a written word -/

theorem whenStorable_ne_unwrittenRead {s t : State} (addr : Option Word) (x : Source) :
    whenStorable s addr (.next t) ≠ .fault (.unwrittenRead x) := by
  cases addr with
  | none => simp [whenStorable]
  | some a =>
    cases hi : s.installed a <;> cases hc : s.textClash a <;> simp [whenStorable, hi, hc]

theorem exec_ne_unwrittenRead {s : State} (hd : s.cfg.unwrittenRead = .draw) (i : Instr)
    (x : Source) : exec i s ≠ .fault (.unwrittenRead x) := by
  rw [exec_eq, whenReadable_of_all fun y _ => State.readable_of_draw hd y]
  have stored := whenStorable_ne_unwrittenRead (s := s) (t := effect i s) (storeAddress i s) x
  cases loadAddress i s with
  | none => exact stored
  | some a =>
    cases hi : s.installed a <;> simp [whenLoadable, hi, State.readable_of_draw hd, stored]

/-- A step that faults on an unwritten read found no word to run, or its instruction faults so. -/
theorem step_unwrittenRead {s : State} {x : Source} (h : step s = .fault (.unwrittenRead x)) :
    s.fetchedWord = none ∨ ∃ i, exec i s.afterFetch = .fault (.unwrittenRead x) := by
  unfold step fetchInstr at h
  split at h
  · split at h
    · exact .inl ‹_›
    · split at h
      · cases h
      · split at h
        · cases h
        · exact .inr ⟨_, h⟩
  · cases h

/-- Settles O26. -/
theorem drawingMachinesNeverFaultOnReads : Obligations.DrawingMachinesNeverFaultOnReads := by
  intro i s x hd
  refine ⟨exec_ne_unwrittenRead hd i x, fun h => ?_⟩
  rcases step_unwrittenRead h with hw | ⟨j, hj⟩
  · obtain ⟨w, hw'⟩ := fetchedWord_of_draw hd
    simp [hw] at hw'
  · exact exec_ne_unwrittenRead (by rwa [State.afterFetch_cfg]) j x hj

end Sys2Proof.Machine
end

section
/-! SUPPORT. What an instruction's outcome does not depend on (R24, R27, R30). -/

namespace Sys2Proof.Machine

/-- The state has the same parameters, program, data and marks, so that the same may be read and
accessed in it. -/
structure SameAccess (s s' : State) : Prop where
  cfg : s'.cfg = s.cfg
  imem : s'.imem = s.imem
  mem : s'.mem = s.mem
  written : s'.written = s.written

namespace SameAccess

variable {s s' : State} (h : SameAccess s s')
include h

theorem installed (a : Word) : s'.installed a = s.installed a := by
  rw [State.installed, dataWords_congr h.cfg, State.installed]

theorem textClash (a : Word) : s'.textClash a = s.textClash a := by
  rw [State.textClash, h.cfg, h.imem, State.textClash]

theorem loadValue (a : Word) : s'.loadValue a = s.loadValue a := by
  rw [State.loadValue, h.textClash, h.cfg, h.mem, State.loadValue]

theorem loaded (a : Word) : s'.loaded a = s.loaded a := by
  rw [State.loaded, h.loadValue, State.loaded]

theorem readable (x : Source) : s'.readable x = s.readable x := by
  cases x <;>
    simp only [State.readable, State.canReadReg, State.canReadLr, State.canReadFlag, State.canRead,
      h.loadValue, h.cfg, h.imem, h.written]

/-- An instruction that goes on goes on in the other state too, if its addresses are the same. -/
theorem exec {i : Instr} {t : State} (hl : loadAddress i s' = loadAddress i s)
    (hs : storeAddress i s' = storeAddress i s) (ht : Machine.exec i s = .next t) :
    t = effect i s ∧ Machine.exec i s' = .next (effect i s') := by
  obtain ⟨hready, rfl⟩ := exec_next_iff.1 ht
  have ready : Ready i s' :=
    { sources := fun x hx => (h.readable x).trans (hready.sources x hx)
      load := fun a ha => by
        rw [h.installed, h.readable]
        exact hready.load a (hl ▸ ha)
      store := fun a ha => by
        rw [h.installed, h.textClash]
        exact hready.store a (hs ▸ ha) }
  exact ⟨rfl, ready.exec⟩

end SameAccess

/-! ### PC -/

/-- Settles O27. -/
theorem onlyRelativeTransfersReadPc : Obligations.OnlyRelativeTransfersReadPc := by
  intro i s t p hi h
  have hs : SameAccess s { s with pc := p } := ⟨rfl, rfl, rfl, rfl⟩
  obtain ⟨rfl, hu⟩ := hs.exec (by cases i <;> rfl) (by cases i <;> rfl) h
  refine ⟨_, hu, ?_⟩
  cases i
  case br | bne | be | blt | bge | bwl => cases hi
  all_goals rfl

/-! ### The carry flag -/

/-- Settles O29. -/
theorem onlyCarryInstructionsReadCarry : Obligations.OnlyCarryInstructionsReadCarry := by
  intro i s t b hadc hadci hsuc hsuci h
  have hs : SameAccess s { s with flags := { s.flags with c := b } } := ⟨rfl, rfl, rfl, rfl⟩
  obtain ⟨rfl, hu⟩ := hs.exec (by cases i <;> rfl) (by cases i <;> rfl) h
  refine ⟨_, hu, ?_⟩
  cases i
  case adc => exact absurd rfl (hadc _ _ _)
  case adci => exact absurd rfl (hadci _ _ _)
  case suc => exact absurd rfl (hsuc _ _ _)
  case suci => exact absurd rfl (hsuci _ _ _)
  all_goals rfl

/-! ### A register -/

/-- Two banks that differ at `r` at most still do so after a write to both, of one value unless to
`r`. -/
theorem Bank.set_set_get {α : Type} (b : Bank α) (r q : Reg) (w : α) {x y : α}
    (h : q ≠ r → x = y) :
    (b.set q x).set r (((b.set r w).set q y).get r) = (b.set r w).set q y := by
  by_cases hq : q = r
  · subst hq
    simp
  · obtain rfl := h hq
    cases r <;> cases q <;> rfl

/-- Another value in a register, its marks as they were. -/
def State.withReg (s : State) (r : Reg) (w : Word) : State := { s with regs := s.regs.set r w }

theorem State.reg_withReg_of_ne (s : State) {r q : Reg} (w : Word) (h : r ≠ q) :
    (s.withReg r w).reg q = s.reg q :=
  Bank.get_set_of_ne s.regs w h.symm

theorem sameAccess_withReg (s : State) (r : Reg) (w : Word) : SameAccess s (s.withReg r w) :=
  ⟨rfl, rfl, rfl, rfl⟩

namespace SameButReg

variable {r : Reg} {s t : State}

theorem iff_withReg : SameButReg r s t ↔ ∃ w, t = s.withReg r w := by
  constructor
  · exact fun h => ⟨_, h.symm⟩
  · rintro ⟨w, rfl⟩
    simp [SameButReg, State.withReg, State.reg]

theorem withReg (s : State) (r : Reg) (w : Word) : SameButReg r s (s.withReg r w) :=
  iff_withReg.2 ⟨w, rfl⟩

theorem writeReg (h : SameButReg r s t) {q : Reg} {x y : Word} (hxy : q ≠ r → x = y)
    (m : Marks) :
    SameButReg r { s with regs := s.regs.set q x, written := m }
      { t with regs := t.regs.set q y, written := m } := by
  obtain ⟨w, rfl⟩ := iff_withReg.1 h
  simp [SameButReg, State.withReg, State.reg, Bank.set_set_get _ _ _ _ hxy]

theorem setReg (h : SameButReg r s t) (q : Reg) (x : Word) :
    SameButReg r (s.setReg q x) (t.setReg q x) := by
  obtain ⟨w, rfl⟩ := iff_withReg.1 h
  exact h.writeReg (fun _ => rfl) _

theorem setUpper (h : SameButReg r s t) (q : Reg) (b : Byte) :
    SameButReg r (s.setUpper q b) (t.setUpper q b) := by
  obtain ⟨w, rfl⟩ := iff_withReg.1 h
  exact h.writeReg (fun hq => by simp [State.withReg, hq]) _

theorem setLower (h : SameButReg r s t) (q : Reg) (b : Byte) :
    SameButReg r (s.setLower q b) (t.setLower q b) := by
  obtain ⟨w, rfl⟩ := iff_withReg.1 h
  exact h.writeReg (fun hq => by simp [State.withReg, hq]) _

theorem setFlags (h : SameButReg r s t) (f : Flags) :
    SameButReg r (s.setFlags f) (t.setFlags f) := by
  obtain ⟨w, rfl⟩ := iff_withReg.1 h
  exact withReg (s.setFlags f) r w

theorem setZ (h : SameButReg r s t) (b : Bool) : SameButReg r (s.setZ b) (t.setZ b) := by
  obtain ⟨w, rfl⟩ := iff_withReg.1 h
  exact withReg (s.setZ b) r w

theorem setLr (h : SameButReg r s t) (x : Word) : SameButReg r (s.setLr x) (t.setLr x) := by
  obtain ⟨w, rfl⟩ := iff_withReg.1 h
  exact withReg (s.setLr x) r w

theorem setPc (h : SameButReg r s t) (x : Word) : SameButReg r (s.setPc x) (t.setPc x) := by
  obtain ⟨w, rfl⟩ := iff_withReg.1 h
  exact withReg (s.setPc x) r w

theorem setMem (h : SameButReg r s t) (a x : Word) :
    SameButReg r (s.setMem a x) (t.setMem a x) := by
  obtain ⟨w, rfl⟩ := iff_withReg.1 h
  exact withReg (s.setMem a x) r w

theorem setResult (h : SameButReg r s t) (rd : Reg) (x : AluResult) :
    SameButReg r (s.setResult rd x) (t.setResult rd x) := (h.setReg rd x.value).setFlags x.flags

theorem setLogic (h : SameButReg r s t) (rd : Reg) (x : Word) :
    SameButReg r (s.setLogic rd x) (t.setLogic rd x) := (h.setReg rd x).setZ _

end SameButReg

section

variable {i : Instr} {r : Reg} (hr : .reg r ∉ reads i) (s : State) (w : Word)
include hr

theorem reg_withReg_of_read {q : Reg} (hq : .reg q ∈ reads i) : (s.withReg r w).reg q = s.reg q :=
  s.reg_withReg_of_ne w fun heq => hr (heq ▸ hq)

theorem loadAddress_withReg : loadAddress i (s.withReg r w) = loadAddress i s := by
  have agree {q : Reg} := reg_withReg_of_read hr s w (q := q)
  cases i
  case ldw => rw [loadAddress, agree (by simp [reads])]; rfl
  case pop | popLr => rw [loadAddress, agree (by simp [reads])]; rfl
  all_goals rfl

theorem storeAddress_withReg : storeAddress i (s.withReg r w) = storeAddress i s := by
  have agree {q : Reg} := reg_withReg_of_read hr s w (q := q)
  cases i
  case stw | push | pushLr => rw [storeAddress, agree (by simp [reads])]; rfl
  all_goals rfl

theorem nextPc_withReg : nextPc i (s.withReg r w) = nextPc i s := by
  have agree {q : Reg} := reg_withReg_of_read hr s w (q := q)
  cases i
  case jmp => rw [nextPc, agree (by simp [reads])]; rfl
  all_goals rfl

theorem afterWrites_withReg :
    SameButReg r (afterWrites i s) (afterWrites i (s.withReg r w)) := by
  have h := SameButReg.withReg s r w
  have agree {q : Reg} := reg_withReg_of_read hr s w (q := q)
  have loaded := (sameAccess_withReg s r w).loaded
  cases i <;> simp only [reads, List.mem_cons, List.not_mem_nil, or_false, Source.reg.injEq,
    reduceCtorEq] at agree <;>
    simp only [afterWrites, agree, loaded, true_or, or_true]
  case add | addi | addib | adc | adci | neg | sub | subi | subib | suc | suci =>
    exact h.setResult _ _
  case cmp | cmpi => exact h.setFlags _
  case and | or | xor | not | nand | nor => exact h.setLogic _ _
  case lsl | lsr | asr | ldw => exact h.setReg _ _
  case lui => exact h.setUpper _ _
  case lli => exact h.setLower _ _
  case stw => exact h.setMem _ _
  case push | pushLr => exact (h.setMem _ _).setReg _ _
  case pop => exact (h.setReg _ _).setReg _ _
  case popLr => exact (h.setReg _ _).setLr _
  case bwl => exact h.setLr _
  case br | bne | be | blt | bge | ret | jmp => exact h

theorem effect_withReg : SameButReg r (effect i s) (effect i (s.withReg r w)) := by
  rw [effect, effect, nextPc_withReg hr]
  exact (afterWrites_withReg hr s w).setPc _

end

/-- Settles O28. -/
theorem unreadRegistersDoNotMatter : Obligations.UnreadRegistersDoNotMatter := by
  intro i s t r w hr h
  obtain ⟨rfl, hu⟩ := (sameAccess_withReg s r w).exec (loadAddress_withReg hr s w)
    (storeAddress_withReg hr s w) h
  exact ⟨_, hu, effect_withReg hr s w⟩

end Sys2Proof.Machine
end

section
/-! SUPPORT. What a fetch reads, and that steps leave it alone (R32, R35, R36, R51, R63, R97, R98). -/

namespace Sys2Proof.Machine

/-! ### The word read -/

/-- A word that nothing supplied is read only where unwritten reads draw (R36). -/
theorem unwrittenFetch_of_fault {s : State} (h : s.cfg.unwrittenRead = .fault) :
    s.unwrittenFetch = none := by
  simp [State.unwrittenFetch, h]

theorem fetchDraws_of_not_unified {s : State} (h : s.cfg.memOrg ≠ .unified) :
    s.fetchDraws = false := by
  simp [State.fetchDraws, h]

theorem fetchDraws_of_unified {s : State} (h : s.cfg.memOrg = .unified) :
    s.fetchDraws = true ↔ s.mem.lookup s.pc.toNat ≠ s.imem.lookup s.pc.toNat := by
  simp [State.fetchDraws, h]

/-- A fetch the spec does not settle reads the word now held or the word launched, as the free value
says (R63). -/
theorem suppliedWord_of_unsettled {s : State} (h : s.cfg.memOrg = .unified)
    (hd : s.fetchDraws = true) :
    s.suppliedWord = s.mem.lookup s.pc.toNat ∨ s.suppliedWord = s.imem.lookup s.pc.toNat := by
  cases hb : Config.fetchSeesStore s.draws
  · exact .inr (by simp [State.suppliedWord, h, hd, hb])
  · exact .inl (by simp [State.suppliedWord, h, hb])

/-- The three things that can become of what is supplied. -/
theorem fetchedWord_cases {s : State} {x : Option Word} (h : s.suppliedWord = x) :
    (∀ w, x = some w → s.fetchedWord = some w) ∧
    (x = none → s.cfg.unwrittenRead = .fault → s.fetchedWord = none) ∧
    (x = none → s.cfg.unwrittenRead = .draw → ∃ w, s.fetchedWord = some w) := by
  subst h
  exact ⟨fun _ => fetchedWord_of_supplied,
    fun hn hf => (fetchedWord_of_unsupplied hn).trans (unwrittenFetch_of_fault hf),
    fun _ => fetchedWord_of_draw⟩

/-- A unified memory has one word at an address: where nothing supplied it, a fetch draws what a
load does. -/
theorem fetchedWord_eq_loadValue {s : State} (h : s.cfg.memOrg = .unified)
    (hs : s.suppliedWord = none) (hm : s.mem.lookup s.pc.toNat = none) :
    s.fetchedWord = s.loadValue s.pc := by
  rw [fetchedWord_of_unsupplied hs]
  cases hu : s.cfg.unwrittenRead <;>
    simp [State.unwrittenFetch, State.loadValue, State.textClash, h, hm, hu]

/-- Settles O8. -/
theorem fetchReadsTheProgram : Obligations.FetchReadsTheProgram := by
  intro s
  refine ⟨fun ho => ?_, fun hu hsame => ?_, fun hu hne => ?_⟩
  · exact ⟨fetchedWord_cases (suppliedWord_of_not_unified ho), fetchDraws_of_not_unified ho⟩
  · have hs := suppliedWord_of_settled hu hsame
    have hd : s.fetchDraws = false := by
      rw [← Bool.not_eq_true, fetchDraws_of_unified hu]
      exact not_not.2 hsame
    exact ⟨fetchedWord_cases hs, hd, fun hn => fetchedWord_eq_loadValue hu (hs.trans hn) hn⟩
  · have hd := (fetchDraws_of_unified hu).2 hne
    exact ⟨hd, (suppliedWord_of_unsettled hu hd).imp fetchedWord_cases fetchedWord_cases⟩

/-! ### When two states fetch the same word -/

/-- What an unsupplied word reads as depends on the data word at its address too, where unwritten
reads draw while `MEM_ORG` is kept open (log 10). -/
theorem unwrittenFetch_congr {s t : State} (hcfg : t.cfg = s.cfg) (hpc : t.pc = s.pc)
    (h : s.cfg.memOrg = .unresolved → s.cfg.unwrittenRead = .draw →
      t.mem.lookup s.pc.toNat = s.mem.lookup s.pc.toNat) :
    t.unwrittenFetch = s.unwrittenFetch := by
  unfold State.unwrittenFetch
  rw [hcfg, hpc]
  cases hu : s.cfg.unwrittenRead
  · rfl
  · cases ho : s.cfg.memOrg
    case unresolved => simp only [h ho hu]
    all_goals rfl

/-- Unless memory is unified, a fetch depends on the program text, and on a data word only where
that may be the unsupplied word (R32, R63). -/
theorem fetchedWord_congr {s t : State} (ho : s.cfg.memOrg ≠ .unified) (hcfg : t.cfg = s.cfg)
    (himem : t.imem = s.imem) (hpc : t.pc = s.pc)
    (h : s.cfg.memOrg = .unresolved → s.cfg.unwrittenRead = .draw →
      s.imem.lookup s.pc.toNat = none → t.mem.lookup s.pc.toNat = s.mem.lookup s.pc.toNat) :
    t.fetchedWord = s.fetchedWord := by
  have hs := suppliedWord_of_not_unified ho
  have ht : t.suppliedWord = s.suppliedWord := by
    rw [suppliedWord_of_not_unified (by rwa [hcfg]), himem, hpc, hs]
  cases hw : s.suppliedWord with
  | some w => rw [fetchedWord_of_supplied hw, fetchedWord_of_supplied (ht.trans hw)]
  | none =>
    rw [fetchedWord_of_unsupplied hw, fetchedWord_of_unsupplied (ht.trans hw)]
    exact unwrittenFetch_congr hcfg hpc fun hopen hdraw => h hopen hdraw (hs.symm.trans hw)

/-- Settles O10: a step writes neither the parameters nor the program text. -/
theorem noStepChangesTheProgram : Obligations.NoStepChangesTheProgram := by
  intro s t ho hstep p hsettled
  obtain ⟨-, -, i, -, -, hx⟩ := step_next hstep
  obtain ⟨-, rfl⟩ := exec_next_iff.1 hx
  have hcfg : (effect i s.afterFetch).cfg = s.cfg := by simp
  have himem : (effect i s.afterFetch).imem = s.imem := by simp
  refine fetchedWord_congr (s := { s with pc := p }) ho hcfg himem rfl fun hopen hdraw hnone => ?_
  rcases hsettled with hsep | hfault | hsome | hmem
  · cases hopen.symm.trans hsep
  · cases hdraw.symm.trans hfault
  · rw [hnone] at hsome
    cases hsome
  · exact hmem

/-! ### A word that nothing supplied -/

/-- Nothing supplied the word at PC: no launch and, in a unified memory, no store. -/
def State.Unsupplied (s : State) : Prop :=
  s.imem.lookup s.pc.toNat = none ∧
    (s.cfg.memOrg = .unified → s.mem.lookup s.pc.toNat = none)

namespace State.Unsupplied

variable {s : State} (h : s.Unsupplied)
include h

theorem fetchDraws : s.fetchDraws = false := by
  obtain ⟨hi, hm⟩ := h
  by_cases hu : s.cfg.memOrg = .unified
  · simp [State.fetchDraws, hi, hm hu]
  · exact fetchDraws_of_not_unified hu

theorem fetchedWord : s.fetchedWord = s.unwrittenFetch := by
  obtain ⟨hi, hm⟩ := h
  apply fetchedWord_of_unsupplied
  by_cases hu : s.cfg.memOrg = .unified
  · rw [suppliedWord_of_settled hu (by rw [hi, hm hu]), hm hu]
  · rw [suppliedWord_of_not_unified hu, hi]

end State.Unsupplied

theorem step_of_no_word {s : State} (hp : s.pc.toNat < s.fetchWords) (hw : s.fetchedWord = none) :
    step s = .fault (.unwrittenRead (.text s.pc)) := by
  simp [step, fetchInstr, hp, hw]

theorem step_of_unassigned {s : State} {w u : Word} (hp : s.pc.toNat < s.fetchWords)
    (hw : s.fetchedWord = some w) (hd : decode w = .error (.unassignedOpcode u)) :
    step s = .fault (.illegalInstruction u s.pc) := by
  simp [step, fetchInstr, hp, hw, hd]

theorem step_of_refused {s : State} {w : Word} {i : Instr} (hp : s.pc.toNat < s.fetchWords)
    (hw : s.fetchedWord = some w) (hd : decode w = .ok i) (hr : s.cfg.ignoredBits = .refuse)
    (hc : w &&& ignoredMask i ≠ 0#16) : step s = .refused (.nonCanonicalEncoding w) := by
  simp [step, fetchInstr, hp, hw, hd, hr, canonical, hc]

/-- A settled fetch hands the instruction on with the state as it stands. -/
theorem step_of_settled {s : State} {w : Word} {i : Instr} (hp : s.pc.toNat < s.fetchWords)
    (hw : s.fetchedWord = some w) (hd : decode w = .ok i)
    (hc : s.cfg.ignoredBits = .ignore ∨ w &&& ignoredMask i = 0#16) (hf : s.fetchDraws = false) :
    step s = exec i s := by
  rw [step, fetchInstr_ok hp hw hd (hc.imp_right beq_iff_eq.2), s.afterFetch_of_settled hf]

/-- Settles O59. -/
theorem unsuppliedTextFaultsOrDraws : Obligations.UnsuppliedTextFaultsOrDraws := by
  intro s hp hi hm
  have hs : s.Unsupplied := ⟨hi, hm⟩
  refine ⟨fun hf => step_of_no_word hp (hs.fetchedWord.trans (unwrittenFetch_of_fault hf)),
    fun hd => ?_⟩
  obtain ⟨w, hw⟩ := fetchedWord_of_draw hd
  refine ⟨w, hw, fun u => step_of_unassigned hp hw, fun i hi =>
    ⟨fun hc => step_of_settled hp hw hi hc hs.fetchDraws, step_of_refused hp hw hi⟩,
    fun t hcfg himem hpc hsettled => ?_⟩
  have same (ho : s.cfg.memOrg ≠ .separate) : t.mem.lookup s.pc.toNat = s.mem.lookup s.pc.toNat :=
    hsettled.resolve_left ho
  have ht : t.Unsupplied := by
    rw [State.Unsupplied, hcfg, himem, hpc]
    exact ⟨hi, fun hu => (same (by simp [hu])).trans (hm hu)⟩
  rw [ht.fetchedWord, unwrittenFetch_congr hcfg hpc fun ho _ => same (by simp [ho]),
    ← hs.fetchedWord, hw]

/-! ### Reset -/

/-- Settles O11. -/
theorem resetLeavesEverythingUnwritten : Obligations.ResetLeavesEverythingUnwritten :=
  ⟨rfl, Bank.get_all _, rfl, fun f => by cases f <;> rfl, Memory.lookup_nil, Memory.lookup_nil⟩

end Sys2Proof.Machine
end

section
/-! SUPPORT. Logic, byte loads and the return address (R25, R27, R122, R135 to R140, R162, R163,
R186, R187, R202, R203). -/

namespace Sys2Proof.Machine

/-- An instruction that accesses no memory needs its sources alone. -/
theorem ready_of_sources {i : Instr} {s : State} (hl : loadAddress i s = none)
    (hs : storeAddress i s = none) (hr : ∀ x ∈ reads i, s.readable x = true) : Ready i s where
  sources := hr
  load := by simp [hl]
  store := by simp [hs]

/-! ### Logic -/

/-- What an instruction that writes a logic result leaves, bit by bit. -/
theorem logic_effect {i : Instr} {s : State} {rd : Reg} {x : Word} {f : Nat → Bool}
    (hi : isControl i = false) (hw : afterWrites i s = s.setLogic rd x)
    (hx : ∀ j : Nat, j < 16 → x.getLsbD j = f j) :
    (∀ j : Nat, j < 16 → ((effect i s).reg rd).getLsbD j = f j) ∧
    ((effect i s).flags.z = true ↔ ((effect i s).reg rd).toNat = 0) ∧
    InSequence s (effect i s) := by
  have hreg : (effect i s).reg rd = x := by simp [effect, hw, State.setLogic]
  have hz : (effect i s).flags.z = (x == 0#16) := by simp [effect, hw, State.setLogic, Flags.set]
  refine ⟨by rwa [hreg], ?_, effect_inSequence hi s⟩
  rw [hz, hreg, beq_iff_eq, ← BitVec.toNat_inj, BitVec.toNat_zero]

/-- Settles O42. -/
theorem logicResults : Obligations.LogicResults := by
  intro s rd ra rb
  refine ⟨fun ha => ?_, fun ha hb => ?_, fun ha => ?_, ?_⟩
  · exact (ready_of_sources rfl rfl (by simp [reads, ha])).completes
      (logic_effect rfl rfl fun j hj => by simp [hj])
  · have ready {i : Instr} (hl : loadAddress i s = none) (hs : storeAddress i s = none)
        (hr : reads i = [.reg ra, .reg rb]) : Ready i s :=
      ready_of_sources hl hs (by simp [hr, ha, hb])
    refine ⟨(ready rfl rfl rfl).completes (logic_effect rfl rfl fun j hj => ?_),
      (ready rfl rfl rfl).completes (logic_effect rfl rfl fun j hj => ?_),
      (ready rfl rfl rfl).completes (logic_effect rfl rfl fun j hj => ?_),
      (ready rfl rfl rfl).completes (logic_effect rfl rfl fun j hj => ?_),
      (ready rfl rfl rfl).completes (logic_effect rfl rfl fun j hj => ?_)⟩
    · exact BitVec.getLsbD_and
    · exact BitVec.getLsbD_or
    · exact BitVec.getLsbD_xor
    · simp [hj]
    · simp [hj]
  · intro i hi
    apply unreadableSourcesFault
    simp only [List.mem_cons, List.not_mem_nil, or_false] at hi
    rcases hi with rfl | rfl | rfl | rfl | rfl | rfl <;> simp [reads, ha]
  · refine ⟨?_, ?_, ?_, ?_, ?_, ?_⟩ <;>
    · intro w hw
      simp only [decode, hw]

/-! ### Byte loads -/

theorem toNat_append_bytes (hi lo : Byte) :
    (hi ++ lo : BitVec (8 + 8)).toNat = hi.toNat * 256 + lo.toNat := by
  rw [BitVec.toNat_append, ← Nat.shiftLeft_add_eq_or_of_lt lo.isLt, Nat.shiftLeft_eq]

theorem ready_lui (rd : Reg) (k : Nat) (s : State) : Ready (.lui rd k) s :=
  ready_of_sources rfl rfl nofun

theorem ready_lli (rd : Reg) (k : Nat) (s : State) : Ready (.lli rd k) s :=
  ready_of_sources rfl rfl nofun

theorem toNat_reg_effect_lui {k : Nat} (hk : k < 256) (rd : Reg) (s : State) :
    ((effect (.lui rd k) s).reg rd).toNat = k * 256 + (s.reg rd).toNat % 256 := by
  simp only [effect, afterWrites, State.reg, State.setPc_regs, State.setUpper_regs,
    Bank.get_set_same, toNat_append_bytes, BitVec.toNat_ofNat, BitVec.extractLsb'_toNat]
  omega

theorem toNat_reg_effect_lli {k : Nat} (hk : k < 256) (rd : Reg) (s : State) :
    ((effect (.lli rd k) s).reg rd).toNat = (s.reg rd).toNat / 256 * 256 + k := by
  have := (s.regs.get rd).isLt
  simp only [effect, afterWrites, State.reg, State.setPc_regs, State.setLower_regs,
    Bank.get_set_same, toNat_append_bytes, BitVec.toNat_ofNat, BitVec.extractLsb'_toNat,
    Nat.shiftRight_eq_div_pow]
  omega

theorem marks_effect_lui (rd : Reg) (k : Nat) (s : State) :
    (effect (.lui rd k) s).written.regs.get rd = ⟨true, (s.written.regs.get rd).lower⟩ :=
  Bank.get_set_same _ _ _

theorem marks_effect_lli (rd : Reg) (k : Nat) (s : State) :
    (effect (.lli rd k) s).written.regs.get rd = ⟨(s.written.regs.get rd).upper, true⟩ :=
  Bank.get_set_same _ _ _

/-- Settles O44. -/
theorem byteLoadResults : Obligations.ByteLoadResults := by
  intro s rd k hk
  refine ⟨(ready_lui rd k s).completes ?_, (ready_lli rd k s).completes ?_, fun w hw => ?_,
    fun w hw => ?_⟩
  · exact ⟨toNat_reg_effect_lui hk rd s, marks_effect_lui rd k s, effect_inSequence rfl s⟩
  · exact ⟨toNat_reg_effect_lli hk rd s, marks_effect_lli rd k s, effect_inSequence rfl s⟩
  · simp only [decode, hw]
  · simp only [decode, hw]

/-- A register with both bytes marked may be read (R23). -/
theorem State.readable_of_marks {s : State} {r : Reg}
    (h : s.written.regs.get r = ⟨true, true⟩) : s.readable (.reg r) = true := by
  simp [readable, canReadReg, canRead, h, ByteMarks.whole]

/-- Settles O45. -/
theorem luiAndLliLoadAConstant : Obligations.LuiAndLliLoadAConstant := by
  intro s rd hi lo hhi hlo
  refine ⟨⟨_, _, (ready_lui rd hi s).exec, (ready_lli rd lo _).exec, ?_,
      State.readable_of_marks ?_⟩,
    ⟨_, _, (ready_lli rd lo s).exec, (ready_lui rd hi _).exec, ?_,
      State.readable_of_marks ?_⟩⟩
  · rw [toNat_reg_effect_lli hlo, toNat_reg_effect_lui hhi]
    omega
  · rw [marks_effect_lli, marks_effect_lui]
  · rw [toNat_reg_effect_lui hhi, toNat_reg_effect_lli hlo]
    omega
  · rw [marks_effect_lui, marks_effect_lli]

/-! ### The return address -/

theorem ready_bwl (off : Int) (s : State) : Ready (.bwl off) s := ready_of_sources rfl rfl nofun

theorem lr_effect_bwl (off : Int) (s : State) :
    (effect (.bwl off) s).lr = s.truncPc (s.pc + 1#16) := rfl

theorem State.readable_lr_of_mark {s : State} (h : s.written.lr = true) :
    s.readable .lr = true := by
  simp [readable, canReadLr, canRead, h]

/-- Settles O51. -/
theorem returnGoesAfterTheCall : Obligations.ReturnGoesAfterTheCall := by
  intro s off hw
  refine ⟨_, (ready_bwl off s).exec, fun u hcfg hlr hmark => ?_⟩
  rw [effect_cfg] at hcfg
  rw [lr_effect_bwl] at hlr
  have ready : Ready .ret u :=
    ready_of_sources rfl rfl (by simp [reads, State.readable_lr_of_mark hmark])
  have hpc : (effect .ret u).pc = s.truncPc (s.pc + 1#16) := by
    rw [effect_pc, State.truncPc_congr hcfg, nextPc, hlr, State.truncPc_of_lt _ _ (s.truncPc_lt _)]
  exact ⟨_, ready.exec, by rw [hpc, State.toNat_truncPc_succ hw], rfl⟩

/-- Under either order a POP reads the word the PUSH before it wrote (R200). -/
theorem popAddress_after_push {s t : State} (h : t.cfg = s.cfg) (sp : Word) :
    t.popAddress (sp - 1#16) = s.pushAddress sp := by
  rw [State.popAddress, State.pushAddress, h]
  cases s.cfg.stackOrder
  · exact BitVec.sub_add_cancel sp 1#16
  · rfl

theorem popAddress_effect_pushLr (s : State) :
    (effect .pushLr s).popAddress ((effect .pushLr s).reg .r7) = s.pushAddress (s.reg .r7) := by
  have hsp : (effect .pushLr s).reg .r7 = s.reg .r7 - 1#16 := rfl
  rw [hsp, popAddress_after_push (effect_cfg _ s)]

/-- The word PUSH LR stored is what a load of its address brings (R60). -/
theorem loadValue_effect_pushLr {s : State} (hc : s.textClash (s.pushAddress (s.reg .r7)) = false) :
    (effect .pushLr s).loadValue (s.pushAddress (s.reg .r7)) = some s.lr :=
  loadValue_of_listed hc (Memory.lookup_write_same _ _ _)

theorem reg_effect_pop (ra : Reg) (s : State) :
    (effect (.pop ra) s).reg ra = s.loaded (s.popAddress (s.reg .r7)) :=
  State.reg_setReg_same _ _ _

/-- A POP right after a PUSH LR that went on goes on too. -/
theorem ready_pop_after_pushLr {s : State} (h : Ready .pushLr s) (ra : Reg) :
    Ready (.pop ra) (effect .pushLr s) where
  sources :=
    have hmarks := effect_marks_regs (i := .pushLr) nofun nofun s .r7 (List.mem_singleton_self _)
    List.forall_mem_singleton.2 (State.readable_of_marks hmarks)
  load := by
    obtain ⟨hi, hc⟩ := h.store _ rfl
    intro a ha
    obtain rfl : s.pushAddress (s.reg .r7) = a :=
      (popAddress_effect_pushLr s).symm.trans (Option.some.inj ha)
    exact ⟨hi, by simp [State.readable, loadValue_effect_pushLr hc]⟩
  store := nofun

/-- Settles O57. -/
theorem returnAddressAsData : Obligations.ReturnAddressAsData := by
  intro s off ra hw hr hi hc
  have push : Ready .pushLr (effect (.bwl off) s) :=
    { sources :=
        have hlr := State.readable_lr_of_mark (effect_marks_lr (i := .bwl off) rfl s)
        List.forall_mem_cons.2 ⟨hr, List.forall_mem_singleton.2 hlr⟩
      load := nofun
      store := by
        rintro a ⟨⟩
        exact ⟨installed_iff.2 hi, hc⟩ }
  refine ⟨_, _, _, (ready_bwl off s).exec, push.exec, (ready_pop_after_pushLr push ra).exec, ?_⟩
  have hload := loadValue_effect_pushLr (s := effect (.bwl off) s) hc
  rw [reg_effect_pop, popAddress_effect_pushLr, State.loaded, hload, Option.getD_some,
    lr_effect_bwl, State.toNat_truncPc_succ hw]

end Sys2Proof.Machine
end

section
/-! SUPPORT. Loads and pops of words that nothing has written (R36, R63, R170, R203, R204). -/

namespace Sys2Proof.Machine

/-! ### What an unwritten word reads as -/

/-- The data read of `a` is a read of an unwritten word: nothing is listed there, or it is a program
address while `MEM_ORG` is kept open (R63). -/
def State.Unwritten (s : State) (a : Word) : Prop :=
  s.mem.lookup a.toNat = none ∨ s.textClash a = true

namespace State.Unwritten

variable {s : State} {a : Word} (h : s.Unwritten a)
include h

theorem loadValue :
    s.loadValue a =
      if s.cfg.unwrittenRead = .draw then some (Config.unwrittenWord a.toNat) else none := by
  rcases h with hn | hc
  · simp [State.loadValue, hn]
  · simp [State.loadValue, hc]

theorem not_readable (hf : s.cfg.unwrittenRead = .fault) : s.readable (.memWord a) = false := by
  simp [readable, h.loadValue, hf]

theorem loaded (hd : s.cfg.unwrittenRead = .draw) : s.loaded a = Config.unwrittenWord a.toNat := by
  simp [State.loaded, h.loadValue, hd]

/-- The word is unwritten in every state that agrees on the parameters, the program and the word. -/
theorem congr {t : State} (hcfg : t.cfg = s.cfg) (himem : t.imem = s.imem)
    (hmem : t.mem.lookup a.toNat = s.mem.lookup a.toNat) : t.Unwritten a := by
  rwa [Unwritten, textClash, hcfg, himem, hmem]

end State.Unwritten

/-- Where unwritten reads draw, a load needs an installed word and nothing more. -/
theorem ready_load_of_draw {i : Instr} {s : State} {a : Word} (hd : s.cfg.unwrittenRead = .draw)
    (hl : loadAddress i s = some a) (hs : storeAddress i s = none) (hi : a.toNat < s.dataWords) :
    Ready i s where
  sources := fun x _ => State.readable_of_draw hd x
  load := by
    intro b hb
    obtain rfl : a = b := Option.some.inj (hl.symm.trans hb)
    exact ⟨installed_iff.2 hi, State.readable_of_draw hd _⟩
  store := by simp [hs]

theorem ldw_draws {s : State} {rd ra : Reg} {k : Nat} {a : Word} (hd : s.cfg.unwrittenRead = .draw)
    (ha : s.dataAddress (s.reg ra) k = a) (hi : a.toNat < s.dataWords) (h : s.Unwritten a) :
    Completes (.ldw rd ra k) s [rd] [] false none
      (fun t => t.reg rd = Config.unwrittenWord a.toNat ∧ InSequence s t) := by
  have hreg : (effect (.ldw rd ra k) s).reg rd = s.loaded (s.dataAddress (s.reg ra) k) :=
    State.reg_setReg_same _ _ _
  refine (ready_load_of_draw (i := .ldw rd ra k) hd (congrArg some ha) rfl hi).completes
    ⟨?_, effect_inSequence rfl s⟩
  rw [hreg, ha, h.loaded hd]

theorem Completes.mono {i : Instr} {s : State} {regs : List Reg} {flags : List Flag} {lr : Bool}
    {stored : Option Word} {p q : State → Prop} (h : Completes i s regs flags lr stored p)
    (hpq : ∀ t, p t → q t) : Completes i s regs flags lr stored q := by
  obtain ⟨t, hexec, hframe, hp⟩ := h
  exact ⟨t, hexec, hframe, hpq t hp⟩

/-- Settles O25. -/
theorem unwrittenWordsFaultOrDraw : Obligations.UnwrittenWordsFaultOrDraw := by
  intro rd ra k s a hr hi h
  refine ⟨fun hf => ?_, fun hd => ⟨Config.unwrittenWord a.toNat, ?_, ?_⟩⟩
  · exact exec_of_unreadable_word (by simpa [reads] using hr) rfl (installed_iff.2 hi)
      (State.Unwritten.not_readable h hf)
  · exact (ldw_draws hd rfl hi h).mono fun _ => And.left
  · intro u rd' ra' k' hcfg himem hmem ha
    have hu : u.Unwritten a := State.Unwritten.congr h hcfg himem hmem
    exact (ldw_draws (by rwa [hcfg]) ha (by rwa [dataWords_congr hcfg]) hu).mono fun _ => And.left

theorem pop_draws {s : State} (ra : Reg) {a : Word} (hd : s.cfg.unwrittenRead = .draw)
    (ha : s.popAddress (s.reg .r7) = a) (hi : a.toNat < s.dataWords) (h : s.Unwritten a) :
    Completes (.pop ra) s [.r7, ra] [] false none (fun t =>
      t.reg ra = Config.unwrittenWord a.toNat ∧
      (ra ≠ .r7 → t.reg .r7 = s.reg .r7 + 1#16) ∧ InSequence s t) := by
  refine (ready_load_of_draw (i := .pop ra) hd (congrArg some ha) rfl hi).completes
    ⟨?_, fun hne => ?_, effect_inSequence rfl s⟩
  · rw [reg_effect_pop, ha, h.loaded hd]
  · have hreg : (effect (.pop ra) s).reg .r7 = (s.setReg .r7 (s.reg .r7 + 1#16)).reg .r7 :=
      (State.reg_setReg _ _ _ _).trans (if_neg hne.symm)
    rw [hreg, State.reg_setReg_same]

theorem popLr_draws {s : State} {a : Word} (hd : s.cfg.unwrittenRead = .draw)
    (ha : s.popAddress (s.reg .r7) = a) (hi : a.toNat < s.dataWords) (h : s.Unwritten a) :
    Completes .popLr s [.r7] [] true none (fun t =>
      t.lr = s.truncPc (Config.unwrittenWord a.toNat) ∧ t.reg .r7 = s.reg .r7 + 1#16 ∧
      InSequence s t) := by
  have hlr : (effect .popLr s).lr = s.truncPc (s.loaded (s.popAddress (s.reg .r7))) := rfl
  refine (ready_load_of_draw (i := .popLr) hd (congrArg some ha) rfl hi).completes
    ⟨?_, State.reg_setReg_same s .r7 _, effect_inSequence rfl s⟩
  rw [hlr, ha, h.loaded hd]

/-- Settles O58. -/
theorem popsOfUnwrittenWordsFaultOrDraw : Obligations.PopsOfUnwrittenWordsFaultOrDraw := by
  intro s ra sp a hr hi h
  have ha : s.popAddress (s.reg .r7) = a := rfl
  have hu : s.Unwritten a := h
  refine ⟨fun hf => ?_, fun hd => ⟨Config.unwrittenWord a.toNat, pop_draws ra hd ha hi hu,
    popLr_draws hd ha hi hu, fun _ _ _ hk => ldw_draws hd hk hi hu⟩⟩
  have stops {i : Instr} (hreads : reads i = [.reg .r7])
      (hl : loadAddress i s = some (s.popAddress (s.reg .r7))) :
      exec i s = .fault (.unwrittenRead (.memWord a)) :=
    exec_of_unreadable_word (by simpa [hreads] using hr) (ha ▸ hl) (installed_iff.2 hi)
      (hu.not_readable hf)
  exact ⟨stops rfl rfl, stops rfl rfl⟩

end Sys2Proof.Machine
end

section
/-! SUPPORT. What a step runs, where an access stops, and a load after a store (R51, R52, R58, R60,
R63, R94, R211, R213, R230). -/

namespace Sys2Proof.Machine

/-! ### The step runs what it fetched -/

/-- A fetch the spec does not settle is counted, and changes nothing else (R63; log 9). -/
theorem State.afterFetch_of_unsettled {s : State} (h : s.fetchDraws = true) :
    s.afterFetch = { s with draws := s.draws + 1 } := if_pos h

/-- An unsettled fetch hands the instruction on with the state that counts it. -/
theorem step_of_unsettled {s : State} {w : Word} {i : Instr} (hp : s.pc.toNat < s.fetchWords)
    (hw : s.fetchedWord = some w) (hd : decode w = .ok i)
    (hc : s.cfg.ignoredBits = .ignore ∨ w &&& ignoredMask i = 0#16) (hf : s.fetchDraws = true) :
    step s = exec i { s with draws := s.draws + 1 } := by
  rw [step, fetchInstr_ok hp hw hd (hc.imp_right beq_iff_eq.2), State.afterFetch_of_unsettled hf]

/-- Settles O7. -/
theorem stepRunsTheDecodedInstruction : Obligations.StepRunsTheDecodedInstruction :=
  fun _ _ _ hp hw hd hc => ⟨step_of_settled hp hw hd hc, step_of_unsettled hp hw hd hc⟩

/-! ### Placing a word where the next fetch reads it -/

namespace State

variable (s : State) (w : Word)

@[simp] theorem placeWord_regs : (s.placeWord w).regs = s.regs := by
  unfold placeWord; split <;> rfl
@[simp] theorem placeWord_flags : (s.placeWord w).flags = s.flags := by
  unfold placeWord; split <;> rfl
@[simp] theorem placeWord_lr : (s.placeWord w).lr = s.lr := by
  unfold placeWord; split <;> rfl
@[simp] theorem placeWord_pc : (s.placeWord w).pc = s.pc := by
  unfold placeWord; split <;> rfl
@[simp] theorem placeWord_written : (s.placeWord w).written = s.written := by
  unfold placeWord; split <;> rfl
@[simp] theorem placeWord_memOrg : (s.placeWord w).cfg.memOrg = s.cfg.memOrg := by
  unfold placeWord; split <;> rfl
@[simp] theorem placeWord_ignoredBits :
    (s.placeWord w).cfg.ignoredBits = s.cfg.ignoredBits := by
  unfold placeWord; split <;> rfl
@[simp] theorem placeWord_imem : (s.placeWord w).imem = s.imem.write s.pc.toNat w := by
  unfold placeWord; split <;> rfl

variable {s}

/-- In a unified memory the word is placed in the one array (R32). -/
theorem placeWord_mem_of_unified (h : s.cfg.memOrg = .unified) :
    (s.placeWord w).mem = s.mem.write s.pc.toNat w := by
  simp [placeWord, h]

/-- The address of the placed word is installed (log 32). -/
theorem pc_lt_fetchWords_placeWord : s.pc.toNat < (s.placeWord w).fetchWords := by
  cases h : s.cfg.memOrg <;> simp [fetchWords, placeWord, h]

/-- In a unified memory the array holds at PC what counts as launched there. -/
theorem placeWord_lookup_of_unified (h : s.cfg.memOrg = .unified) :
    (s.placeWord w).mem.lookup (s.placeWord w).pc.toNat =
      (s.placeWord w).imem.lookup (s.placeWord w).pc.toNat := by
  simp [placeWord_mem_of_unified w h]

theorem suppliedWord_placeWord : (s.placeWord w).suppliedWord = some w := by
  by_cases h : s.cfg.memOrg = .unified
  · rw [suppliedWord_of_settled (by simpa) (placeWord_lookup_of_unified w h),
      placeWord_lookup_of_unified w h]
    simp
  · rw [suppliedWord_of_not_unified (by simpa)]
    simp

/-- Placing a word is no store, so the fetch of it is settled (R63). -/
theorem fetchDraws_placeWord : (s.placeWord w).fetchDraws = false := by
  by_cases h : s.cfg.memOrg = .unified
  · rw [← Bool.not_eq_true, fetchDraws_of_unified (by simpa), not_not]
    exact placeWord_lookup_of_unified w h
  · exact fetchDraws_of_not_unified (by simpa)

end State

theorem step_placeWord {s : State} {w : Word} {i : Instr} (hd : decode w = .ok i)
    (hc : s.cfg.ignoredBits = .ignore) : step (s.placeWord w) = exec i (s.placeWord w) :=
  step_of_settled (by simpa using State.pc_lt_fetchWords_placeWord w)
    (fetchedWord_of_supplied (State.suppliedWord_placeWord w)) hd (.inl (by simpa))
    (State.fetchDraws_placeWord w)

/-- Settles O9. -/
theorem placedWordRunsNext : Obligations.PlacedWordRunsNext :=
  fun s nbits w _ hd hc => ⟨step_placeWord hd hc, s.placeWord_regs (tableWord nbits w),
    s.placeWord_flags _, s.placeWord_lr _, s.placeWord_pc _, s.placeWord_written _⟩

/-! ### An access outside installed memory, or of the program while `MEM_ORG` is kept open -/

/-- No instruction both loads and stores. -/
theorem loadAddress_of_store {i : Instr} {s : State} {a : Word} (h : storeAddress i s = some a) :
    loadAddress i s = none := by
  cases i
  case stw | push | pushLr => rfl
  all_goals cases h

/-- A store whose sources may be read depends on the checks of its address alone. -/
theorem exec_of_store {i : Instr} {s : State} {a : Word}
    (hr : ∀ x ∈ reads i, s.readable x = true) (hs : storeAddress i s = some a) :
    exec i s = whenStorable s (some a) (.next (effect i s)) := by
  rw [exec_eq, whenReadable_of_all hr, loadAddress_of_store hs, hs]
  rfl

/-- A store outside installed memory faults, program address or not (R58; log 35). -/
theorem exec_of_uninstalled_store {i : Instr} {s : State} {a : Word}
    (hr : ∀ x ∈ reads i, s.readable x = true) (hs : storeAddress i s = some a)
    (hi : s.installed a = false) : exec i s = .fault (.memoryOutOfRange a .data) := by
  simp [exec_of_store hr hs, whenStorable, hi]

/-- A store into the program is refused (R63). -/
theorem exec_of_text_store {i : Instr} {s : State} {a : Word}
    (hr : ∀ x ∈ reads i, s.readable x = true) (hs : storeAddress i s = some a)
    (hi : s.installed a = true) (hc : s.textClash a = true) :
    exec i s = .refused (.storeToProgramText a) := by
  simp [exec_of_store hr hs, whenStorable, hi, hc]

/-- A load outside installed memory faults (R58). -/
theorem exec_of_uninstalled_load {i : Instr} {s : State} {a : Word}
    (hr : ∀ x ∈ reads i, s.readable x = true) (hl : loadAddress i s = some a)
    (hi : s.installed a = false) : exec i s = .fault (.memoryOutOfRange a .data) := by
  rw [exec_eq, whenReadable_of_all hr, hl]
  simp [whenLoadable, hi]

theorem fetchWords_of_not_unified {s : State} (h : s.cfg.memOrg ≠ .unified) :
    s.fetchWords = s.cfg.imemWords := by
  unfold State.fetchWords; split <;> simp_all

/-- A fetch outside installed memory faults (R58). -/
theorem step_of_uninstalled {s : State} (h : s.fetchWords ≤ s.pc.toNat) :
    step s = .fault (.memoryOutOfRange s.pc .fetch) := if_neg h.not_gt

/-- Settles O23. -/
theorem accessOutsideInstalledMemoryFaults : Obligations.AccessOutsideInstalledMemoryFaults := by
  refine ⟨fun i s a hr haddr hout => ?_, fun s hsplit hone => step_of_uninstalled ?_⟩
  · have hi : s.installed a = false := not_installed_iff.2 hout
    exact haddr.elim (exec_of_uninstalled_store hr · hi) (exec_of_uninstalled_load hr · hi)
  · by_cases hu : s.cfg.memOrg = .unified
    · rw [State.fetchWords_of_unified hu]
      exact hone hu
    · rw [fetchWords_of_not_unified hu]
      exact hsplit hu

/-- Settles O24. -/
theorem openProgramTextIsNotData : Obligations.OpenProgramTextIsNotData := by
  intro i s a hopen htext hin hr
  have hi : s.installed a = true := installed_iff.2 hin
  have hc : s.textClash a = true := by simp [State.textClash, hopen, htext]
  have hu : s.Unwritten a := .inr hc
  exact ⟨fun hs => exec_of_text_store hr hs hi hc,
    fun hl hf => exec_of_unreadable_word hr hl hi (hu.not_readable hf)⟩

/-! ### A load right after a store -/

/-- A load of an installed word that has a value brings it into the register (R170). -/
theorem ldw_of_value {s : State} {rd ra : Reg} {k : Nat} {a w : Word}
    (hr : s.readable (.reg ra) = true) (ha : s.dataAddress (s.reg ra) k = a)
    (hi : s.installed a = true) (hv : s.loadValue a = some w) :
    exec (.ldw rd ra k) s = .next (s.setReg rd w).advance := by
  subst ha
  rw [exec, execLdw, readReg_ok hr, memRead_ok hi hv, retire]

/-- What an STW that went on stored is what a load of its address finds (R60). -/
theorem loadValue_effect_stw {s : State} {rs ra : Reg} {k : Nat} (h : Ready (.stw rs ra k) s) :
    (effect (.stw rs ra k) s).loadValue (s.dataAddress (s.reg ra) k) = some (s.reg rs) := by
  obtain ⟨-, hc⟩ := h.store _ rfl
  exact loadValue_of_listed hc (Memory.lookup_write_same _ _ _)

/-- Settles O48. -/
theorem loadReturnsTheLastStore : Obligations.LoadReturnsTheLastStore := by
  intro s t rs ra rd rb k j hstore hr ha
  obtain ⟨ready, rfl⟩ := exec_next_iff.1 hstore
  obtain ⟨hi, -⟩ := ready.store _ rfl
  exact ⟨_, ldw_of_value hr ha hi (loadValue_effect_stw ready), State.reg_setReg_same _ _ _, rfl⟩

end Sys2Proof.Machine
end

section
/-! SUPPORT. Words and instructions determine each other: a word decodes to exactly the well-formed
instruction whose own word it is, up to the bits R98 lets that instruction ignore (R81 to R98). -/

namespace Sys2Proof

/-! ### The fields of a word and of a masked word -/

theorem bits_ofNat (n hi lo : Nat) :
    bits (BitVec.ofNat 16 n) hi lo = n % 2 ^ 16 / 2 ^ lo % 2 ^ (hi + 1 - lo) := by
  rw [bits, BitVec.toNat_ofNat]

theorem testBit_bits (w : Word) (hi lo j : Nat) :
    (bits w hi lo).testBit j = (decide (j < hi + 1 - lo) && w.getLsbD (lo + j)) := by
  rw [bits, Nat.testBit_mod_two_pow, Nat.testBit_div_two_pow, BitVec.testBit_toNat, Nat.add_comm lo]

theorem testBit_bits_and_not (w m : Word) (hi lo j : Nat) :
    (bits (w &&& ~~~m) hi lo).testBit j =
      ((bits w hi lo).testBit j && !(bits m hi lo).testBit j) := by
  have hw : w.getLsbD (lo + j) = true → lo + j < 16 := BitVec.lt_of_getLsbD
  simp only [testBit_bits, BitVec.getLsbD_and, BitVec.getLsbD_not]
  grind

variable {w m v : Word} {hi lo n : Nat}

/-- A field where the mask has no bit set is kept. -/
theorem bits_kept (hm : bits m hi lo = 0) (hw : bits w hi lo = n) :
    bits (w &&& ~~~m) hi lo = n := by
  subst hw
  refine Nat.eq_of_testBit_eq fun j => ?_
  rw [testBit_bits_and_not, hm, Nat.zero_testBit, Bool.not_false, Bool.and_true]

/-- A field where the mask has every bit set is cleared. -/
theorem bits_cleared (hm : bits m hi lo = 2 ^ (hi + 1 - lo) - 1) :
    bits (w &&& ~~~m) hi lo = 0 := by
  refine Nat.eq_of_testBit_eq fun j => ?_
  rw [testBit_bits_and_not, hm, Nat.testBit_two_pow_sub_one, testBit_bits, Nat.zero_testBit]
  cases decide (j < hi + 1 - lo) <;> simp

theorem num_ofNum {k : Nat} (h : k < 8) : (Reg.ofNum k).num = k := by
  interval_cases k <;> rfl

theorem bits_rd (w : Word) : bits w 10 8 = (fieldRd w).num := (num_ofNum (bits_lt w 10 8)).symm
theorem bits_ra (w : Word) : bits w 7 5 = (fieldRa w).num := (num_ofNum (bits_lt w 7 5)).symm
theorem bits_rb (w : Word) : bits w 4 2 = (fieldRb w).num := (num_ofNum (bits_lt w 4 2)).symm

theorem bits_offset (w : Word) : bits w 7 0 = offsetByte (fieldOffset w) := by
  have h := bits_lt w 7 0
  unfold offsetByte fieldOffset signed8 fieldImm8
  split <;> omega

/-! ### A word is put together from its fields -/

section
variable {op rd ra rb k : Nat}

/-- Format A1 (R81). -/
theorem eq_wordA1 (ho : bits v 15 11 = op) (hd : bits v 10 8 = rd) (ha : bits v 7 5 = ra)
    (hb : bits v 4 2 = rb) (hx : bits v 1 0 = 0) : v = wordA1 op rd ra rb := by
  apply BitVec.eq_of_toNat_eq
  simp only [bits, wordA1, BitVec.toNat_ofNat] at *
  omega

/-- Formats A2, C and D2 (R82, R84, R86). -/
theorem eq_wordA2 (ho : bits v 15 11 = op) (hd : bits v 10 8 = rd) (ha : bits v 7 5 = ra)
    (hk : bits v 4 0 = k) : v = wordA2 op rd ra k := by
  apply BitVec.eq_of_toNat_eq
  simp only [bits, wordA2, BitVec.toNat_ofNat] at *
  omega

/-- Format A2 with a shift count (R88). -/
theorem eq_wordA2_imm4 (ho : bits v 15 11 = op) (hd : bits v 10 8 = rd) (ha : bits v 7 5 = ra)
    (hx : bits v 4 4 = 0) (hk : bits v 3 0 = k) : v = wordA2 op rd ra k := by
  refine eq_wordA2 ho hd ha ?_
  simp only [bits] at *
  omega

/-- Formats B and D1 (R83, R85). -/
theorem eq_wordB (ho : bits v 15 11 = op) (hd : bits v 10 8 = rd) (hk : bits v 7 0 = k) :
    v = wordB op rd k := by
  apply BitVec.eq_of_toNat_eq
  simp only [bits, wordB, BitVec.toNat_ofNat] at *
  omega

/-- Format E (R87). -/
theorem eq_wordE (ho : bits v 15 11 = op) (hl : bits v 10 10 = k) (hx : bits v 9 8 = 0)
    (ha : bits v 7 5 = ra) (hy : bits v 4 0 = 0) : v = wordE op k ra := by
  apply BitVec.eq_of_toNat_eq
  simp only [bits, wordE, BitVec.toNat_ofNat] at *
  omega

end

/-! ### What a word is once the bits its instruction ignores are cleared

One lemma for each row of R98's table and each format without ignored bits, named after the operands
that are kept. -/

section
variable {op c : Nat} (h : bits w 15 11 = op)
include h

theorem masked_rd_ra_rb :
    w &&& ~~~0x0003#16 = wordA1 op (fieldRd w).num (fieldRa w).num (fieldRb w).num :=
  eq_wordA1 (bits_kept rfl h) (bits_kept rfl (bits_rd w)) (bits_kept rfl (bits_ra w))
    (bits_kept rfl (bits_rb w)) (bits_cleared rfl)

theorem masked_rd_ra : w &&& ~~~0x001F#16 = wordA1 op (fieldRd w).num (fieldRa w).num 0 :=
  eq_wordA1 (bits_kept rfl h) (bits_kept rfl (bits_rd w)) (bits_kept rfl (bits_ra w))
    (bits_cleared rfl) (bits_cleared rfl)

theorem masked_ra_rb : w &&& ~~~0x0703#16 = wordA1 op 0 (fieldRa w).num (fieldRb w).num :=
  eq_wordA1 (bits_kept rfl h) (bits_cleared rfl) (bits_kept rfl (bits_ra w))
    (bits_kept rfl (bits_rb w)) (bits_cleared rfl)

theorem masked_ra_imm5 : w &&& ~~~0x0700#16 = wordA2 op 0 (fieldRa w).num (fieldImm5 w) :=
  eq_wordA2 (bits_kept rfl h) (bits_cleared rfl) (bits_kept rfl (bits_ra w)) (bits_kept rfl rfl)

theorem masked_rd_ra_imm4 :
    w &&& ~~~0x0010#16 = wordA2 op (fieldRd w).num (fieldRa w).num (fieldImm4 w) :=
  eq_wordA2_imm4 (bits_kept rfl h) (bits_kept rfl (bits_rd w)) (bits_kept rfl (bits_ra w))
    (bits_cleared rfl) (bits_kept rfl rfl)

theorem masked_rd_ra_imm5 :
    w &&& ~~~0x0000#16 = wordA2 op (fieldRd w).num (fieldRa w).num (fieldImm5 w) :=
  eq_wordA2 (bits_kept rfl h) (bits_kept rfl (bits_rd w)) (bits_kept rfl (bits_ra w))
    (bits_kept rfl rfl)

theorem masked_cond_ra_imm5 (hc : bits w 10 8 = c) :
    w &&& ~~~0x0000#16 = wordA2 op c (fieldRa w).num (fieldImm5 w) :=
  eq_wordA2 (bits_kept rfl h) (bits_kept rfl hc) (bits_kept rfl (bits_ra w)) (bits_kept rfl rfl)

theorem masked_rd_imm8 : w &&& ~~~0x0000#16 = wordB op (fieldRd w).num (fieldImm8 w) :=
  eq_wordB (bits_kept rfl h) (bits_kept rfl (bits_rd w)) (bits_kept rfl rfl)

theorem masked_cond_offset (hc : bits w 10 8 = c) :
    w &&& ~~~0x0000#16 = wordB op c (offsetByte (fieldOffset w)) :=
  eq_wordB (bits_kept rfl h) (bits_kept rfl hc) (bits_kept rfl (bits_offset w))

theorem masked_cond (hc : bits w 10 8 = c) : w &&& ~~~0x00FF#16 = wordB op c 0 :=
  eq_wordB (bits_kept rfl h) (bits_kept rfl hc) (bits_cleared rfl)

theorem masked_l_ra (hl : bits w 10 10 = c) :
    w &&& ~~~0x031F#16 = wordE op c (fieldRa w).num :=
  eq_wordE (bits_kept rfl h) (bits_kept rfl hl) (bits_cleared rfl) (bits_kept rfl (bits_ra w))
    (bits_cleared rfl)

theorem masked_l (hl : bits w 10 10 = c) : w &&& ~~~0x03FF#16 = wordE op c 0 :=
  eq_wordE (bits_kept rfl h) (bits_kept rfl hl) (bits_cleared rfl) (bits_cleared rfl)
    (bits_cleared rfl)

end

/-! ### Decoding and encoding -/

/-- The word is that of the instruction but for the bits R98 lets it ignore, and every operand lies
in the range of its field. -/
def Carries (w : Word) (i : Instr) : Prop := i.wf = true ∧ w &&& ~~~(ignoredMask i) = encode i

theorem carries_decodeControl (h : bits w 15 11 = 0b11110) : Carries w (decodeControl w) := by
  have hlt := bits_lt w 10 8
  have branch {c : Nat} (hc : bits w 10 8 = c) :
      fitsOffset (fieldOffset w) = true ∧
        w &&& ~~~0x0000#16 = wordB 0b11110 c (offsetByte (fieldOffset w)) :=
    ⟨decide_eq_true (fieldOffset_range w), masked_cond_offset h hc⟩
  unfold decodeControl
  split
  case h_2 hc => exact ⟨decide_eq_true (fieldImm5_lt w), masked_cond_ra_imm5 h hc⟩
  case h_3 hc => exact ⟨rfl, masked_cond h hc⟩
  case h_8 => exact branch (c := 7) (by grind)
  all_goals exact branch ‹_›

/-- What a word decodes to is well formed and has the word's fields (R94 to R98). The cases are the
rows of the opcode map in their order (R95). -/
theorem carries_of_decode {i : Instr} (h : decode w = .ok i) : Carries w i := by
  have hl := bits_lt w 10 10
  unfold decode at h
  split at h <;> cases h <;> rename_i h
  -- POP and PUSH, both forms
  case h_2 | h_10 =>
    by_cases hc : bits w 10 10 = 1
    · rw [if_pos hc]
      exact ⟨rfl, masked_l h hc⟩
    · rw [if_neg hc]
      exact ⟨rfl, masked_l_ra h (show bits w 10 10 = 0 by omega)⟩
  -- CMP
  case h_8 => exact ⟨rfl, masked_ra_rb h⟩
  -- CMPI
  case h_16 => exact ⟨decide_eq_true (fieldImm5_lt w), masked_ra_imm5 h⟩
  -- NOT, NEG
  case h_19 | h_25 => exact ⟨rfl, masked_rd_ra h⟩
  -- ASR, LSR, LSL
  case h_26 | h_27 | h_29 => exact ⟨decide_eq_true (fieldImm4_lt w), masked_rd_ra_imm4 h⟩
  -- the control transfers
  case h_28 => exact carries_decodeControl h
  -- ADDIB, SUBIB, LUI, LLI
  case h_4 | h_12 | h_21 | h_22 => exact ⟨decide_eq_true (fieldImm8_lt w), masked_rd_imm8 h⟩
  -- LDW, ADCI, ADDI, STW, SUCI, SUBI
  case h_1 | h_6 | h_7 | h_9 | h_14 | h_15 =>
    exact ⟨decide_eq_true (fieldImm5_lt w), masked_rd_ra_imm5 h⟩
  -- ADD, ADC, SUB, SUC, AND, OR, XOR, NAND, NOR
  all_goals exact ⟨rfl, masked_rd_ra_rb h⟩

/-- A word that has the fields of an instruction's word decodes to that instruction, whatever its
ignored bits hold (R94 to R98). -/
theorem decode_of_fields {i : Instr} (hwf : i.wf = true)
    (h : ∀ hi lo, bits (ignoredMask i) hi lo = 0 → bits w hi lo = bits (encode i) hi lo) :
    decode w = .ok i := by
  cases i <;>
    simp only [Instr.wf, fitsField, fitsOffset, decide_eq_true_eq, Nat.reducePow] at hwf
  case add | adc | sub | suc | and | or | xor | nand | nor | neg | not | cmp =>
    simp [decode, fieldRd, fieldRa, fieldRb, h, ignoredMask, bits_ofNat, encode, bits_wordA1,
      Reg.num_lt]
  case addi | adci | subi | suci | cmpi | ldw | stw | jmp =>
    simp [decode, decodeControl, fieldRd, fieldRa, fieldImm5, h, ignoredMask, bits_ofNat, encode,
      bits_wordA2, Reg.num_lt, hwf]
  case lsl | lsr | asr =>
    have hlt := hwf.trans (show 16 < 32 by decide)
    simp [decode, fieldRd, fieldRa, fieldImm4, h, ignoredMask, bits_ofNat, encode, bits_wordA2,
      bits_wordA2_imm4, Reg.num_lt, hwf, hlt]
  case addib | subib | lui | lli =>
    simp [decode, fieldRd, fieldImm8, h, ignoredMask, bits_ofNat, encode, bits_wordB, Reg.num_lt,
      hwf]
  case br | bne | be | blt | bge | bwl | ret =>
    simp [decode, decodeControl, fieldOffset, fieldImm8, h, ignoredMask, bits_ofNat, encode,
      bits_wordB, offsetByte_lt, signed8_offsetByte, hwf]
  case push | pushLr | pop | popLr =>
    simp [decode, fieldRa, h, ignoredMask, bits_ofNat, encode, bits_wordE, Reg.num_lt]

theorem decode_eq_ok_iff {i : Instr} : decode w = .ok i ↔ Carries w i := by
  refine ⟨carries_of_decode, fun ⟨hwf, hw⟩ => decode_of_fields hwf fun _ _ hm => ?_⟩
  rw [← hw, bits_kept hm rfl]

/-- Settles O1: an instruction's word has its own fields. -/
theorem decodeEncodeRoundTrip : Obligations.DecodeEncodeRoundTrip :=
  fun _ hwf => decode_of_fields hwf fun _ _ _ => rfl

/-- Settles O2. -/
theorem decodedInstructionsAreWellFormed : Obligations.DecodedInstructionsAreWellFormed := by
  intro w i h
  obtain ⟨hwf, -⟩ := carries_of_decode h
  exact hwf

/-- Settles O4: decoding to an instruction is carrying it. -/
theorem ignoredBitsDoNotMatter : Obligations.IgnoredBitsDoNotMatter :=
  ⟨fun _ _ => decode_eq_ok_iff,
    fun _ _ _ _ => by simp only [ignoredMask, and_self],
    fun _ _ _ => Machine.step_of_refused⟩

/-! ### Unassigned opcodes -/

/-- The opcodes R97 lists. -/
theorem decode_eq_error_iff {e : DecodeError} : decode w = .error e ↔
    (bits w 15 11 = 0b11000 ∨ bits w 15 11 = 0b11001 ∨ bits w 15 11 = 0b11011) ∧
      .unassignedOpcode w = e := by
  have hlt := bits_lt w 15 11
  unfold decode
  split
  case h_30 =>
    simp only [Except.error.injEq, iff_and_self]
    grind
  all_goals simp [*]

/-- Settles O3: the ranges are those of the three opcodes. -/
theorem unassignedOpcodesAreIllegal : Obligations.UnassignedOpcodesAreIllegal := by
  intro w unassigned
  have error (h : unassigned) : decode w = .error (.unassignedOpcode w) := by
    refine decode_eq_error_iff.2 ⟨?_, rfl⟩
    simp only [bits]
    omega
  refine ⟨error, fun h => ?_, fun h s hp hw => Machine.step_of_unassigned hp hw (error h)⟩
  cases hd : decode w with
  | ok i => exact ⟨i, rfl⟩
  | error e =>
    obtain ⟨hop, -⟩ := decode_eq_error_iff.1 hd
    simp only [bits] at hop
    omega

/-! ### Sample words and the Cond field -/

/-- Settles O5. -/
theorem sampleWordsDecode : Obligations.SampleWordsDecode :=
  ⟨rfl, rfl, rfl, rfl, rfl, rfl, rfl, rfl, rfl, rfl⟩

/-- Settles O6. -/
theorem condSelectsTheControlTransfer : Obligations.CondSelectsTheControlTransfer := by
  intro w h
  refine ⟨?_, ?_, ?_, ?_, ?_, ?_, ?_, ?_⟩ <;>
  · intro hc
    simp only [decode, h, decodeControl, hc]

end Sys2Proof
end

section
/-! SUPPORT. The shifts as arithmetic (R88, R141, R143 to R145). -/

namespace Sys2Proof.Machine

/-- A word is its signed value modulo 65536 (R9). -/
theorem toNat_eq_toInt_emod (w : Word) : (w.toNat : Int) = w.toInt % 65536 := by
  have h := w.isLt
  rw [BitVec.toInt_eq_toNat_bmod, show (65536 : Int) = ((2 ^ 16 : Nat) : Int) from rfl,
    Int.bmod_emod]
  omega

/-- What an instruction that writes one register and nothing else leaves. -/
theorem reg_effect_of_setReg {i : Instr} {s : State} {rd : Reg} {x : Word}
    (hw : afterWrites i s = s.setReg rd x) : (effect i s).reg rd = x := by
  rw [effect, hw, State.reg_setPc, State.reg_setReg_same]

theorem toNat_reg_effect_lsl (rd ra : Reg) (k : Nat) (s : State) :
    ((effect (.lsl rd ra k) s).reg rd).toNat = (s.reg ra).toNat * 2 ^ k % 65536 := by
  rw [reg_effect_of_setReg rfl, BitVec.toNat_shiftLeft, Nat.shiftLeft_eq]

theorem toNat_reg_effect_lsr (rd ra : Reg) (k : Nat) (s : State) :
    ((effect (.lsr rd ra k) s).reg rd).toNat = (s.reg ra).toNat / 2 ^ k := by
  rw [reg_effect_of_setReg rfl, BitVec.toNat_ushiftRight, Nat.shiftRight_eq_div_pow]

theorem toNat_reg_effect_asr (rd ra : Reg) (k : Nat) (s : State) :
    (((effect (.asr rd ra k) s).reg rd).toNat : Int) =
      (s.reg ra).toInt / (2 : Int) ^ k % 65536 := by
  rw [reg_effect_of_setReg rfl, toNat_eq_toInt_emod, BitVec.toInt_sshiftRight,
    Int.shiftRight_eq_div_pow, Nat.cast_pow, Nat.cast_ofNat]

/-- Settles O43. -/
theorem shiftResults : Obligations.ShiftResults := by
  intro s rd ra k _ ha
  have ready {i : Instr} (hl : loadAddress i s = none) (hs : storeAddress i s = none)
      (hr : reads i = [.reg ra]) : Ready i s :=
    ready_of_sources hl hs (by simp [hr, ha])
  refine ⟨(ready rfl rfl rfl).completes ?_, (ready rfl rfl rfl).completes ?_,
    (ready rfl rfl rfl).completes ?_, fun w hw => ?_, fun w hw => ?_, fun w hw => ?_⟩
  · exact ⟨toNat_reg_effect_lsl rd ra k s, effect_inSequence rfl s⟩
  · exact ⟨toNat_reg_effect_lsr rd ra k s, effect_inSequence rfl s⟩
  · exact ⟨toNat_reg_effect_asr rd ra k s, effect_inSequence rfl s⟩
  all_goals simp only [decode, hw]

end Sys2Proof.Machine
end

section
/-! SUPPORT. Addition, subtraction and comparison: the flag functions as arithmetic, and the
instructions that write their results (R120, R121, R124 to R134, R160, R161, R182 to R185). -/

namespace Sys2Proof.Machine

/-! ### AddFlags -/

section
variable (a b : Word) (cin : Bool)

theorem toNat_value_addFlags :
    (addFlags a b cin).value.toNat = (a.toNat + b.toNat + cin.toNat) % 65536 :=
  BitVec.toNat_ofNat _ _

theorem c_addFlags_iff :
    (addFlags a b cin).flags.c = true ↔ 65536 ≤ a.toNat + b.toNat + cin.toNat :=
  decide_eq_true_iff

theorem v_addFlags_iff :
    (addFlags a b cin).flags.v = true ↔ a.msb = b.msb ∧ (addFlags a b cin).value.msb ≠ a.msb := by
  simp [addFlags]

theorem n_addFlags : (addFlags a b cin).flags.n = (addFlags a b cin).value.msb := rfl

theorem z_addFlags_iff :
    (addFlags a b cin).flags.z = true ↔ (addFlags a b cin).value.toNat = 0 := by
  rw [← BitVec.toNat_zero, BitVec.toNat_inj]
  exact beq_iff_eq

/-- Result and carry together are the exact unsigned sum (R120). -/
theorem addFlags_exact :
    (addFlags a b cin).value.toNat + 65536 * (addFlags a b cin).flags.c.toNat =
      a.toNat + b.toNat + cin.toNat := by
  have ha := a.isLt
  have hb := b.isLt
  have hcin := cin.toNat_le
  rw [toNat_value_addFlags]
  by_cases h : 65536 ≤ a.toNat + b.toNat + cin.toNat
  · rw [(c_addFlags_iff a b cin).2 h, Bool.toNat_true]
    omega
  · rw [Bool.eq_false_iff.2 (mt (c_addFlags_iff a b cin).1 h), Bool.toNat_false]
    omega

/-- As signed numbers, the result is the exact sum where that is in range, and is off by 65536 where
it overflows on either side. -/
theorem toInt_value_addFlags :
    let r := (addFlags a b cin).value.toInt
    let sum := a.toInt + b.toInt + cin.toNat
    (r = sum ∧ -32768 ≤ sum ∧ sum ≤ 32767) ∨ (r = sum - 65536 ∧ 32767 < sum ∧ r < 0) ∨
      (r = sum + 65536 ∧ sum < -32768 ∧ 0 ≤ r) := by
  have ha := a.isLt
  have hb := b.isLt
  have hcin := cin.toNat_le
  simp only [BitVec.toInt_eq_toNat_cond, toNat_value_addFlags]
  omega

/-- `v` is exactly signed overflow (R120). -/
theorem v_addFlags_iff_overflow :
    (addFlags a b cin).flags.v = true ↔
      a.toInt + b.toInt + cin.toNat < -32768 ∨ 32767 < a.toInt + b.toInt + cin.toNat := by
  have hr := toInt_value_addFlags a b cin
  have ha := a.toInt_lt
  have hb := b.toInt_lt
  have ha' := a.le_toInt
  have hb' := b.le_toInt
  have hcin := cin.toNat_le
  rw [v_addFlags_iff]
  simp only [BitVec.msb_eq_toInt, ne_eq, decide_eq_decide]
  omega

/-- `n` and `v` together give the sign of the exact signed sum. -/
theorem n_ne_v_addFlags_iff :
    (addFlags a b cin).flags.n ≠ (addFlags a b cin).flags.v ↔
      a.toInt + b.toInt + cin.toNat < 0 := by
  have hr := toInt_value_addFlags a b cin
  have hv := v_addFlags_iff_overflow a b cin
  have hn : (addFlags a b cin).flags.n = true ↔ (addFlags a b cin).value.toInt < 0 := by
    rw [n_addFlags, BitVec.msb_eq_toInt, decide_eq_true_iff]
  rw [Ne, Bool.eq_iff_iff, hn, hv]
  omega

end

/-- Settles O30. -/
theorem addFlagsIsTheAdder : Obligations.AddFlagsIsTheAdder :=
  fun a b cin => ⟨toNat_value_addFlags a b cin, c_addFlags_iff a b cin, v_addFlags_iff a b cin,
    v_addFlags_iff_overflow a b cin, n_addFlags a b cin, z_addFlags_iff a b cin⟩

/-! ### SubFlags -/

theorem toNat_not_word (b : Word) : (~~~b).toNat = 65535 - b.toNat := BitVec.toNat_not

theorem toInt_not_word (b : Word) : (~~~b).toInt = -b.toInt - 1 := by
  have hb := b.isLt
  simp only [BitVec.toInt_eq_toNat_cond, toNat_not_word]
  omega

/-- SUC takes from `c` the carry out that the subtraction before it left there (R131). -/
theorem carryIn_carryFlag (p : SubCarry) (carry : Bool) :
    carryIn p (carryFlag p carry) = carry := by
  cases p
  · rfl
  · exact Bool.not_not carry

section
variable (p : SubCarry) (a b : Word) (cin : Bool)

/-- Subtraction is the addition of the complement, but for how `c` tells the carry (R121). -/
theorem subFlags_eq :
    subFlags p a b cin =
      { value := (addFlags a (~~~b) cin).value
        flags := { (addFlags a (~~~b) cin).flags with
          c := carryFlag p (addFlags a (~~~b) cin).flags.c } } := by
  have hmsb : (a.msb != b.msb) = (a.msb == (~~~b).msb) := by
    cases a.msb <;> simp [BitVec.msb_not]
  simp only [subFlags, addFlags, toNat_not_word, hmsb]

/-- Result and borrow together are the exact unsigned difference (R121). -/
theorem subFlags_exact :
    ((subFlags p a b cin).value.toNat : Int) -
        65536 * (1 - (carryIn p (subFlags p a b cin).flags.c).toNat) =
      a.toNat - b.toNat - (1 - cin.toNat) := by
  have h := addFlags_exact a (~~~b) cin
  have hb := b.isLt
  rw [toNat_not_word] at h
  simp only [subFlags_eq, carryIn_carryFlag]
  omega

theorem toNat_value_subFlags :
    ((subFlags p a b cin).value.toNat : Int) =
      ((a.toNat : Int) - b.toNat - (1 - cin.toNat)) % 65536 := by
  have h := subFlags_exact p a b cin
  have hr := (subFlags p a b cin).value.isLt
  omega

/-- The carry of a subtraction says that nothing was borrowed (R121). -/
theorem carryIn_c_subFlags_iff :
    carryIn p (subFlags p a b cin).flags.c = true ↔
      (b.toNat : Int) + (1 - cin.toNat) ≤ a.toNat := by
  have h := c_addFlags_iff a (~~~b) cin
  have hb := b.isLt
  rw [toNat_not_word] at h
  simp only [subFlags_eq, carryIn_carryFlag, h]
  omega

theorem v_subFlags_iff :
    (subFlags p a b cin).flags.v = true ↔
      a.msb ≠ b.msb ∧ (subFlags p a b cin).value.msb ≠ a.msb := by
  simp [subFlags]

theorem v_subFlags_iff_overflow :
    (subFlags p a b cin).flags.v = true ↔
      a.toInt - b.toInt - (1 - cin.toNat) < -32768 ∨
        32767 < a.toInt - b.toInt - (1 - cin.toNat) := by
  have h := v_addFlags_iff_overflow a (~~~b) cin
  rw [toInt_not_word] at h
  rw [subFlags_eq, h]
  omega

theorem n_subFlags : (subFlags p a b cin).flags.n = (subFlags p a b cin).value.msb := rfl

theorem z_subFlags_iff :
    (subFlags p a b cin).flags.z = true ↔ (subFlags p a b cin).value.toNat = 0 := by
  rw [subFlags_eq]
  exact z_addFlags_iff a (~~~b) cin

end

/-- Settles O31. -/
theorem subFlagsIsSubtraction : Obligations.SubFlagsIsSubtraction := by
  intro p a b cin
  have hc := carryIn_c_subFlags_iff p a b cin
  refine ⟨toNat_value_subFlags p a b cin, ?_, ?_, v_subFlags_iff p a b cin,
    v_subFlags_iff_overflow p a b cin, n_subFlags p a b cin, z_subFlags_iff p a b cin⟩
  · rintro rfl
    exact hc
  · rintro rfl
    rw [← hc, carryIn, Bool.not_eq_true', Bool.not_eq_false]

theorem carryFlag_notBorrow_ne_borrow (carry : Bool) :
    carryFlag .notBorrow carry ≠ carryFlag .borrow carry :=
  Bool.self_ne_not carry

/-- Settles O41: SUB_CARRY has a say in `carryFlag` alone. -/
theorem subCarryChangesOnlyCarry : Obligations.SubCarryChangesOnlyCarry := by
  intro a b cin
  simp only [subFlags_eq, true_and]
  exact carryFlag_notBorrow_ne_borrow _

/-! ### What a comparison tells (R133) -/

section
variable (p : SubCarry) (a b : Word)

theorem z_compare_iff : (subFlags p a b true).flags.z = true ↔ a = b := by
  have h := toNat_value_subFlags p a b true
  have ha := a.isLt
  have hb := b.isLt
  rw [Bool.toNat_true] at h
  rw [z_subFlags_iff, ← BitVec.toNat_inj]
  omega

theorem n_ne_v_compare_iff :
    (subFlags p a b true).flags.n ≠ (subFlags p a b true).flags.v ↔ a.toInt < b.toInt := by
  have h := n_ne_v_addFlags_iff a (~~~b) true
  rw [toInt_not_word, Bool.toNat_true] at h
  rw [subFlags_eq, h]
  omega

theorem c_compare_iff :
    (subFlags .notBorrow a b true).flags.c = true ↔ b.toNat ≤ a.toNat := by
  have h := carryIn_c_subFlags_iff .notBorrow a b true
  rw [carryIn, Bool.toNat_true] at h
  rw [h]
  omega

end

/-! ### The instructions that write an arithmetic result -/

section
variable {i : Instr} {s : State} {rd : Reg} {r : AluResult}

theorem reg_effect_of_setResult (hw : afterWrites i s = s.setResult rd r) :
    (effect i s).reg rd = r.value := by
  rw [effect, hw, State.reg_setPc, State.setResult, State.reg_setFlags, State.reg_setReg_same]

theorem flags_effect_of_setResult (hw : afterWrites i s = s.setResult rd r) :
    (effect i s).flags = r.flags := by
  rw [effect, hw, State.setPc_flags, State.setResult, State.setFlags_flags]

/-- An instruction that goes on with an arithmetic result writes it, its flags and PC. -/
theorem result_effect (hi : isControl i = false) (hw : afterWrites i s = s.setResult rd r) :
    (effect i s).reg rd = r.value ∧ (effect i s).flags = r.flags ∧ InSequence s (effect i s) :=
  ⟨reg_effect_of_setResult hw, flags_effect_of_setResult hw, effect_inSequence hi s⟩

end

/-- Settles O33. -/
theorem additionResults : Obligations.AdditionResults := by
  intro s rd ra rb k
  refine ⟨fun ha hb => ?_, fun ha => ?_, fun hd => ?_, ?_⟩
  · exact (ready_of_sources rfl rfl (by simp [reads, ha, hb])).completes (result_effect rfl rfl)
  · exact (ready_of_sources rfl rfl (by simp [reads, ha])).completes (result_effect rfl rfl)
  · exact (ready_of_sources rfl rfl (by simp [reads, hd])).completes (result_effect rfl rfl)
  · refine ⟨?_, ?_, ?_⟩ <;>
    · intro w hw
      simp only [decode, hw]

/-- Settles O34. -/
theorem carryAdditionResults : Obligations.CarryAdditionResults := by
  intro s rd ra rb k hc ha
  refine ⟨fun hb => ?_, ?_, fun w hw => ?_, fun w hw => ?_⟩
  · exact (ready_of_sources rfl rfl (by simp [reads, ha, hb, hc])).completes
      (result_effect rfl rfl)
  · exact (ready_of_sources rfl rfl (by simp [reads, ha, hc])).completes (result_effect rfl rfl)
  · simp only [decode, hw]
  · simp only [decode, hw]

/-- Settles O35. -/
theorem subtractionResults : Obligations.SubtractionResults := by
  intro s rd ra rb k
  refine ⟨fun ha => ?_, fun ha hb => ?_, fun ha => ?_, fun hd => ?_, ?_⟩
  · exact (ready_of_sources rfl rfl (by simp [reads, ha])).completes (result_effect rfl rfl)
  · exact (ready_of_sources rfl rfl (by simp [reads, ha, hb])).completes (result_effect rfl rfl)
  · exact (ready_of_sources rfl rfl (by simp [reads, ha])).completes (result_effect rfl rfl)
  · exact (ready_of_sources rfl rfl (by simp [reads, hd])).completes (result_effect rfl rfl)
  · refine ⟨?_, ?_, ?_, ?_⟩ <;>
    · intro w hw
      simp only [decode, hw]

/-- Settles O36: the carry in is `carryIn` of `c`. -/
theorem carrySubtractionResults : Obligations.CarrySubtractionResults := by
  intro s rd ra rb k hc ha cin
  refine ⟨fun hb => ?_, ?_, fun w hw => ?_, fun w hw => ?_⟩
  · exact (ready_of_sources rfl rfl (by simp [reads, ha, hb, hc])).completes
      (result_effect rfl rfl)
  · exact (ready_of_sources rfl rfl (by simp [reads, ha, hc])).completes (result_effect rfl rfl)
  · simp only [decode, hw]
  · simp only [decode, hw]

/-- Settles O37. -/
theorem comparisonResults : Obligations.ComparisonResults := by
  intro s ra rb k ha tells
  have told (a b : Word) : tells a b (subFlags s.cfg.subCarry a b true).flags := by
    refine ⟨rfl, z_compare_iff _ a b, n_ne_v_compare_iff _ a b, fun hp => ?_⟩
    rw [hp]
    exact c_compare_iff a b
  refine ⟨fun hb => ?_, ?_, fun w hw => ?_, fun w hw => ?_⟩
  · exact (ready_of_sources rfl rfl (by simp [reads, ha, hb])).completes
      ⟨told _ _, effect_inSequence rfl s⟩
  · exact (ready_of_sources rfl rfl (by simp [reads, ha])).completes
      ⟨told _ _, effect_inSequence rfl s⟩
  · simp only [decode, hw]
  · simp only [decode, hw]

/-! ### An instruction after another -/

/-- No instruction makes a register unreadable (R23). -/
theorem readable_reg_effect {s : State} {r : Reg} (h : s.readable (.reg r) = true) (i : Instr) :
    (effect i s).readable (.reg r) = true := by
  obtain ⟨hup, hlo⟩ := effect_keeps_reg_marks i s r
  obtain ⟨before, -⟩ := readableMeansWrittenOrDrawn s
  obtain ⟨after, -⟩ := readableMeansWrittenOrDrawn (effect i s)
  rw [after, effect_cfg]
  exact ((before r).1 h).imp_right (And.imp hup hlo)

/-- A flag that an instruction wrote may be read (R36). -/
theorem readable_flag_effect {i : Instr} {f : Flag} (h : f ∈ flagsWritten i) (s : State) :
    (effect i s).readable (.flag f) = true :=
  State.canRead_iff.2 (.inr (effect_marks_flags i s f h))

theorem reg_effect_of_not_dest {i : Instr} {r : Reg} (h : r ∉ destRegs i) (s : State) :
    (effect i s).reg r = s.reg r := by
  obtain ⟨hregs, -⟩ := effect_onlyWrites i s
  exact (hregs r h).1

/-! ### Conditional branches after a comparison -/

/-- A branch that reads its flags goes to its target exactly on its condition (R180). -/
theorem branch_goes {i : Instr} {t : State} {taken : Bool} {off : Int} {condition : Prop}
    (ready : Ready i t) (hpc : nextPc i t = t.branchTo taken off)
    (hc : taken = true ↔ condition) :
    ∃ u, exec i t = .next u ∧
      (condition → u.pc = t.truncPc (t.pc + BitVec.ofInt 16 off)) ∧
      (¬ condition → InSequence t u) := by
  refine ⟨effect i t, ready.exec, fun h => ?_, fun h => ?_⟩
  · rw [effect_pc, hpc, State.branchTo, if_pos (hc.2 h), State.branchTarget]
  · rw [InSequence, effect_pc, hpc, State.branchTo, if_neg (mt hc.1 h)]

/-- Settles O38. -/
theorem compareThenBranchDecidesTheOrder : Obligations.CompareThenBranchDecidesTheOrder := by
  intro s ra rb off ha hb
  have cmp : Ready (.cmp ra rb) s := ready_of_sources rfl rfl (by simp [reads, ha, hb])
  have readable (f : Flag) : (effect (.cmp ra rb) s).readable (.flag f) = true :=
    readable_flag_effect f.mem_all s
  have hz := z_compare_iff s.cfg.subCarry (s.reg ra) (s.reg rb)
  have hnv := n_ne_v_compare_iff s.cfg.subCarry (s.reg ra) (s.reg rb)
  refine ⟨_, cmp.exec, branch_goes ?_ rfl hz, branch_goes ?_ rfl ?_, branch_goes ?_ rfl ?_,
    branch_goes ?_ rfl ?_⟩
  · exact ready_of_sources rfl rfl (by simp [reads, readable])
  · exact ready_of_sources rfl rfl (by simp [reads, readable])
  · rw [Bool.not_eq_true', ← Bool.not_eq_true]
    exact not_congr hz
  · exact ready_of_sources rfl rfl (by simp [reads, readable])
  · exact bne_iff_ne.trans hnv
  · exact ready_of_sources rfl rfl (by simp [reads, readable])
  · rw [beq_iff_eq, ← not_ne_iff, ← not_lt]
    exact not_congr hnv

/-! ### Two-word numbers -/

/-- Adding the high words with the carry of the low words adds the two-word numbers. -/
theorem addFlags_two_words (ah al bh bl : Word) :
    let low := addFlags al bl false
    let high := addFlags ah bh low.flags.c
    high.value.toNat * 65536 + low.value.toNat =
      (ah.toNat * 65536 + al.toNat + (bh.toNat * 65536 + bl.toNat)) % 2 ^ 32 := by
  intro low high
  have hlow : low.value.toNat + 65536 * low.flags.c.toNat = al.toNat + bl.toNat :=
    addFlags_exact al bl false
  have hhigh : high.value.toNat + 65536 * high.flags.c.toNat =
      ah.toNat + bh.toNat + low.flags.c.toNat := addFlags_exact ah bh low.flags.c
  have := low.value.isLt
  have := high.value.isLt
  omega

/-- Subtracting the high words with the borrow of the low words subtracts the two-word numbers. -/
theorem subFlags_two_words (p : SubCarry) (ah al bh bl : Word) :
    let low := subFlags p al bl true
    let high := subFlags p ah bh (carryIn p low.flags.c)
    (high.value.toNat : Int) * 65536 + low.value.toNat =
      ((ah.toNat : Int) * 65536 + al.toNat - ((bh.toNat : Int) * 65536 + bl.toNat)) % 2 ^ 32 := by
  intro low high
  have hlow : (low.value.toNat : Int) - 65536 * (1 - (carryIn p low.flags.c).toNat) =
      al.toNat - bl.toNat - (1 - 1) := subFlags_exact p al bl true
  have hhigh : (high.value.toNat : Int) - 65536 * (1 - (carryIn p high.flags.c).toNat) =
      ah.toNat - bh.toNat - (1 - (carryIn p low.flags.c).toNat) :=
    subFlags_exact p ah bh (carryIn p low.flags.c)
  have := low.value.isLt
  have := high.value.isLt
  omega

/-! The second of two instructions reads the carry the first left. -/

section
variable {i j : Instr} {s : State} {dl dh ah bh : Reg} {low : AluResult}

theorem ready_high_word (hi : .c ∈ flagsWritten i)
    (ha : s.readable (.reg ah) = true) (hb : s.readable (.reg bh) = true)
    (hr : ∀ x ∈ reads j, x = .flag .c ∨ x = .reg ah ∨ x = .reg bh)
    (hl : loadAddress j (effect i s) = none) (hs : storeAddress j (effect i s) = none) :
    Ready j (effect i s) := by
  refine ready_of_sources hl hs fun x hx => ?_
  rcases hr x hx with rfl | rfl | rfl
  · exact readable_flag_effect hi s
  · exact readable_reg_effect ha i
  · exact readable_reg_effect hb i

theorem reg_low_word (hi : afterWrites i s = s.setResult dl low) (hj : dl ∉ destRegs j) :
    (effect j (effect i s)).reg dl = low.value := by
  rw [reg_effect_of_not_dest hj, reg_effect_of_setResult hi]

theorem reg_high_word (f : Word → Word → Bool → AluResult)
    (hi : afterWrites i s = s.setResult dl low) (ha : ah ∉ destRegs i) (hb : bh ∉ destRegs i)
    (hj : afterWrites j (effect i s) = (effect i s).setResult dh
      (f ((effect i s).reg ah) ((effect i s).reg bh) (effect i s).flags.c)) :
    (effect j (effect i s)).reg dh = (f (s.reg ah) (s.reg bh) low.flags.c).value := by
  rw [reg_effect_of_setResult hj, reg_effect_of_not_dest ha, reg_effect_of_not_dest hb,
    flags_effect_of_setResult hi]

end

/-- Settles O39. -/
theorem twoWordAddition : Obligations.TwoWordAddition := by
  intro s dl dh al ah bl bh hah hbh hd hr
  simp only [List.forall_mem_cons, List.not_mem_nil, false_imp_iff, implies_true, and_true] at hr
  obtain ⟨hal, har, hbl, hbr⟩ := hr
  have low : Ready (.add dl al bl) s := ready_of_sources rfl rfl (by simp [reads, hal, hbl])
  have high : Ready (.adc dh ah bh) (effect (.add dl al bl) s) :=
    ready_high_word (Flag.mem_all _) har hbr (by simp [reads]) rfl rfl
  have hlow : (effect (.adc dh ah bh) (effect (.add dl al bl) s)).reg dl = _ :=
    reg_low_word rfl (List.mem_singleton.not.2 hd.symm)
  have hhigh : (effect (.adc dh ah bh) (effect (.add dl al bl) s)).reg dh = _ :=
    reg_high_word addFlags rfl (List.mem_singleton.not.2 hah.symm)
      (List.mem_singleton.not.2 hbh.symm) rfl
  refine ⟨_, _, low.exec, high.exec, ?_⟩
  rw [hlow, hhigh]
  exact addFlags_two_words _ _ _ _

/-- Settles O40: the borrow of the low words is what SUC subtracts, under either SUB_CARRY. -/
theorem twoWordSubtraction : Obligations.TwoWordSubtraction := by
  intro s dl dh al ah bl bh hah hbh hd hr
  simp only [List.forall_mem_cons, List.not_mem_nil, false_imp_iff, implies_true, and_true] at hr
  obtain ⟨hal, har, hbl, hbr⟩ := hr
  have low : Ready (.sub dl al bl) s := ready_of_sources rfl rfl (by simp [reads, hal, hbl])
  have high : Ready (.suc dh ah bh) (effect (.sub dl al bl) s) :=
    ready_high_word (Flag.mem_all _) har hbr (by simp [reads]) rfl rfl
  have hlow : (effect (.suc dh ah bh) (effect (.sub dl al bl) s)).reg dl = _ :=
    reg_low_word rfl (List.mem_singleton.not.2 hd.symm)
  have hhigh : (effect (.suc dh ah bh) (effect (.sub dl al bl) s)).reg dh = _ :=
    reg_high_word (fun a b c => subFlags s.cfg.subCarry a b (carryIn s.cfg.subCarry c)) rfl
      (List.mem_singleton.not.2 hah.symm) (List.mem_singleton.not.2 hbh.symm) rfl
  refine ⟨_, _, low.exec, high.exec, ?_⟩
  rw [hlow, hhigh]
  exact subFlags_two_words _ _ _ _ _

end Sys2Proof.Machine
end

section
/-! SUPPORT. LDW and STW: the word at base plus offset, loaded and stored (R57, R170 to R172,
R213). -/

namespace Sys2Proof.Machine

/-- A load needs its sources, and a word that is installed and may be read. -/
theorem ready_load {i : Instr} {s : State} {a : Word} (hr : ∀ x ∈ reads i, s.readable x = true)
    (hl : loadAddress i s = some a) (hs : storeAddress i s = none) (hi : s.installed a = true)
    (hv : s.readable (.memWord a) = true) : Ready i s where
  sources := hr
  load := by
    intro b hb
    obtain rfl : a = b := Option.some.inj (hl.symm.trans hb)
    exact ⟨hi, hv⟩
  store := by simp [hs]

/-- A store needs its sources, and a word that is installed and no program text (R63). -/
theorem ready_store {i : Instr} {s : State} {a : Word} (hr : ∀ x ∈ reads i, s.readable x = true)
    (hs : storeAddress i s = some a) (hi : s.installed a = true) (hc : s.textClash a = false) :
    Ready i s where
  sources := hr
  load := by simp [loadAddress_of_store hs]
  store := by
    intro b hb
    obtain rfl : a = b := Option.some.inj (hs.symm.trans hb)
    exact ⟨hi, hc⟩

/-! ### LDW -/

/-- LDW completes with the word its address holds, the address formed before Rd is written (R170). -/
theorem ldw_completes {s : State} {rd ra : Reg} {k : Nat} {a w : Word}
    (hr : s.readable (.reg ra) = true) (ha : s.dataAddress (s.reg ra) k = a)
    (hi : s.installed a = true) (hv : s.loadValue a = some w) :
    Completes (.ldw rd ra k) s [rd] [] false none (fun t => t.reg rd = w ∧ InSequence s t) := by
  have ready : Ready (.ldw rd ra k) s :=
    ready_load (List.forall_mem_singleton.2 hr) (congrArg some ha) rfl hi
      (by simp [State.readable, hv])
  refine ready.completes ⟨?_, effect_inSequence rfl s⟩
  rw [reg_effect_of_setReg rfl, ha, State.loaded, hv, Option.getD_some]

/-- Settles O46. -/
theorem loadResult : Obligations.LoadResult := by
  intro s rd ra k a
  have haddr : loadAddress (.ldw rd ra k) s = some a := rfl
  refine ⟨fun ha => ?_, fun ha => ?_, fun w hw => ?_⟩
  · exact unreadableSourcesFault _ _ _ (by simp [reads, ha])
  · have sources : ∀ x ∈ reads (.ldw rd ra k), s.readable x = true :=
      List.forall_mem_singleton.2 ha
    refine ⟨fun hout => ?_, fun hin hc => ⟨fun hnone hf => ?_, fun w hw => ?_⟩⟩
    · exact exec_of_uninstalled_load sources haddr (not_installed_iff.2 hout)
    · have unwritten : s.Unwritten a := .inl hnone
      exact exec_of_unreadable_word sources haddr (installed_iff.2 hin)
        (unwritten.not_readable hf)
    · exact ldw_completes ha rfl (installed_iff.2 hin) (loadValue_of_listed hc hw)
  · simp only [decode, hw]

/-! ### STW -/

/-- After an STW its address holds the word stored (R60, R171). -/
theorem lookup_effect_stw (rd ra : Reg) (k : Nat) (s : State) :
    (effect (.stw rd ra k) s).mem.lookup (s.dataAddress (s.reg ra) k).toNat = some (s.reg rd) :=
  Memory.lookup_write_same _ _ _

/-- Settles O47. -/
theorem storeResult : Obligations.StoreResult := by
  intro s rd ra k a
  have haddr : storeAddress (.stw rd ra k) s = some a := rfl
  refine ⟨fun ha => ?_, fun ha hd => ?_, fun ha hd => ?_, fun w hw => ?_⟩
  · exact unreadableSourcesFault _ _ _ (by simp [reads, ha])
  · exact unreadableSourcesFault _ _ _ (by simp [reads, ha, hd])
  · have sources : ∀ x ∈ reads (.stw rd ra k), s.readable x = true := by simp [reads, ha, hd]
    refine ⟨fun hout => ?_, fun hin => ⟨fun hc => ?_, fun hc => ?_⟩⟩
    · exact exec_of_uninstalled_store sources haddr (not_installed_iff.2 hout)
    · exact exec_of_text_store sources haddr (installed_iff.2 hin) hc
    · exact (ready_store sources haddr (installed_iff.2 hin) hc).completes
        ⟨lookup_effect_stw rd ra k s, effect_inSequence rfl s⟩
  · simp only [decode, hw]

end Sys2Proof.Machine
end

section
/-! SUPPORT. The control transfers: where they go, when they are taken, and the end of a run (R180
to R188, R233). -/

namespace Sys2Proof.Machine

/-! ### Where a control transfer goes, as a number -/

/-- A PC given the word of an integer holds that integer modulo 2^`PC_WIDTH` (R26). -/
theorem State.toNat_truncPc_ofInt {s : State} (hw : s.cfg.pcWidth ≤ 16) (x : Int) :
    ((s.truncPc (BitVec.ofInt 16 x)).toNat : Int) = x % 2 ^ s.cfg.pcWidth := by
  have hdvd : (2 : Int) ^ s.cfg.pcWidth ∣ 2 ^ 16 := pow_dvd_pow 2 hw
  have hword : ((BitVec.ofInt 16 x).toNat : Int) = x % 2 ^ 16 := by
    rw [BitVec.toNat_ofInt]
    omega
  rw [toNat_truncPc, Int.natCast_mod, hword, Int.natCast_pow]
  exact Int.emod_emod_of_dvd x hdvd

theorem add_ofInt (w : Word) (x : Int) : w + BitVec.ofInt 16 x = BitVec.ofInt 16 (w.toNat + x) := by
  rw [BitVec.ofInt_add, BitVec.ofInt_natCast, BitVec.ofNat_toNat, BitVec.setWidth_eq]

section
variable {s : State} (hw : s.cfg.pcWidth ≤ 16)
include hw

/-- A relative transfer counts from its own address (R180). -/
theorem toNat_truncPc_branchTarget (off : Int) :
    ((s.truncPc (s.branchTarget off)).toNat : Int) = (s.pc.toNat + off) % 2 ^ s.cfg.pcWidth := by
  rw [State.branchTarget, add_ofInt, State.toNat_truncPc_ofInt hw]

theorem toNat_truncPc_next :
    ((s.truncPc (s.pc + 1#16)).toNat : Int) = (s.pc.toNat + 1) % 2 ^ s.cfg.pcWidth :=
  toNat_truncPc_branchTarget hw 1

/-- JMP is absolute (R188). -/
theorem toNat_truncPc_jumpTarget (base : Word) (k : Nat) :
    ((s.truncPc (s.jumpTarget base k)).toNat : Int) =
      (base.toNat + (extImm5 s.cfg.imm5Jmp k).toNat) % 2 ^ s.cfg.pcWidth := by
  have hext : extImm5 s.cfg.imm5Jmp k = BitVec.ofInt 16 (extImm5 s.cfg.imm5Jmp k).toNat := by simp
  rw [← State.toNat_truncPc_ofInt hw, ← add_ofInt, ← hext, State.jumpTarget]

/-- Where a conditional branch leaves PC, taken and not taken (R180). -/
theorem toNat_pc_of_branch {i : Instr} {taken : Bool} {off : Int} {condition : Prop}
    (hpc : nextPc i s = s.branchTo taken off) (hc : taken = true ↔ condition) :
    (condition → ((effect i s).pc.toNat : Int) = (s.pc.toNat + off) % 2 ^ s.cfg.pcWidth) ∧
    (¬ condition → ((effect i s).pc.toNat : Int) = (s.pc.toNat + 1) % 2 ^ s.cfg.pcWidth) := by
  rw [effect_pc, hpc, ← hc]
  refine ⟨fun h => ?_, fun h => ?_⟩
  · rw [State.branchTo, if_pos h, toNat_truncPc_branchTarget hw]
  · rw [State.branchTo, if_neg h, toNat_truncPc_next hw]

end

/-! ### Encoding -/

/-- Opcode and Cond make up the high byte of a word (R85, R96). -/
theorem opcode_cond_of_high_byte {w : Word} {n : Nat} (h : bits w 15 8 = n) :
    bits w 15 11 = n / 8 ∧ bits w 10 8 = n % 8 := by
  simp only [bits] at h ⊢
  omega

/-! ### The unconditional transfers -/

theorem ready_br (off : Int) (s : State) : Ready (.br off) s := ready_of_sources rfl rfl nofun

/-- Settles O49. -/
theorem unconditionalTransfers : Obligations.UnconditionalTransfers := by
  intro s ra k off hw modulus
  refine ⟨(ready_br off s).completes ?_, (ready_bwl off s).completes ⟨?_, ?_⟩, fun hr hlr => ?_,
    fun hr => ?_, fun ha => ?_, fun ha => ?_, ?_⟩
  · rw [effect_pc]
    exact toNat_truncPc_branchTarget hw off
  · rw [effect_pc]
    exact toNat_truncPc_branchTarget hw off
  · rw [lr_effect_bwl]
    exact toNat_truncPc_next hw
  · have ready : Ready .ret s := ready_of_sources rfl rfl (by simp [reads, hr])
    exact ready.completes (s.truncPc_of_lt s.lr hlr)
  · exact unreadableSourcesFault _ _ _ (by simp [reads, hr])
  · have ready : Ready (.jmp ra k) s := ready_of_sources rfl rfl (by simp [reads, ha])
    exact ready.completes (toNat_truncPc_jumpTarget hw _ k)
  · exact unreadableSourcesFault _ _ _ (by simp [reads, ha])
  · refine ⟨?_, ?_, ?_, ?_⟩ <;>
    · intro w h
      obtain ⟨hop, hcond⟩ := opcode_cond_of_high_byte h
      simp only [decode, hop, decodeControl, hcond]

/-! ### The conditional branches -/

/-- A logic result clears `z` exactly when it is not zero (R122). -/
theorem z_setLogic_eq_false_iff (s : State) (rd : Reg) (r : Word) :
    (s.setLogic rd r).flags.z = false ↔ r ≠ 0#16 :=
  beq_eq_false_iff_ne

/-- Settles O50. -/
theorem conditionalTransfers : Obligations.ConditionalTransfers := by
  intro s off hw modulus goes
  refine ⟨fun hz => ⟨?_, ?_⟩, fun hn hv => ⟨?_, ?_⟩, fun a b => ⟨?_, ?_, ?_⟩,
    z_setLogic_eq_false_iff s, ?_⟩
  · exact (ready_of_sources rfl rfl (by simp [reads, hz])).completes
      (toNat_pc_of_branch hw rfl (Bool.not_eq_true' _).to_iff)
  · exact (ready_of_sources rfl rfl (by simp [reads, hz])).completes
      (toNat_pc_of_branch hw rfl Iff.rfl)
  · exact (ready_of_sources rfl rfl (by simp [reads, hn, hv])).completes
      (toNat_pc_of_branch hw rfl bne_iff_ne)
  · exact (ready_of_sources rfl rfl (by simp [reads, hn, hv])).completes
      (toNat_pc_of_branch hw rfl beq_iff_eq)
  · rw [← Bool.not_eq_true]
    exact not_congr (z_compare_iff _ a b)
  · exact n_ne_v_compare_iff _ a b
  · rw [← not_ne_iff, ← not_lt]
    exact not_congr (n_ne_v_compare_iff _ a b)
  · refine ⟨?_, ?_, ?_, ?_⟩ <;>
    · intro w h
      obtain ⟨hop, hcond⟩ := opcode_cond_of_high_byte h
      simp only [decode, hop, decodeControl, hcond]

/-! ### The end of a run -/

theorem State.ended_iff {s : State} : s.ended = true ↔
    s.pc.toNat < s.fetchWords ∧ s.fetchDraws = false ∧ s.fetchedWord = some 0xF000#16 := by
  simp [ended, and_assoc]

/-- A branch to itself leaves everything as it is (R181). -/
theorem effect_br_self {s : State} (hpc : s.pc.toNat < 2 ^ s.cfg.pcWidth) :
    effect (.br 0) s = s := by
  have htarget : s.branchTarget 0 = s.pc := BitVec.add_zero s.pc
  rw [effect, afterWrites, nextPc, htarget, State.setPc, s.truncPc_of_lt _ hpc]

/-- Settles O52: the word 0xF000 is a branch to itself. -/
theorem endOfRunRepeatsForEver : Obligations.EndOfRunRepeatsForEver := by
  intro s hpc hended
  obtain ⟨hp, hf, hw⟩ := State.ended_iff.1 hended
  have hd : decode 0xF000#16 = .ok (.br 0) := rfl
  rw [step_of_settled hp hw hd (.inr rfl) hf, (ready_br 0 s).exec, effect_br_self hpc]

end Sys2Proof.Machine
end

section
/-! SUPPORT. The stack operations: PUSH and POP of a register and of LR (R200 to R205, R213). -/

namespace Sys2Proof.Machine

/-! ### Encoding -/

/-- Opcode and L make up the six high bits of a word (R87). -/
theorem opcode_l_of_six_high_bits {w : Word} {n : Nat} (h : bits w 15 10 = n) :
    bits w 15 11 = n / 2 ∧ bits w 10 10 = n % 2 := by
  simp only [bits] at h ⊢
  omega

/-! ### PUSH -/

/-- In `s` the instruction is a PUSH of `d`: it stores `d`, moves R7 down and goes on in sequence
(R201, R202). -/
structure IsPush (i : Instr) (s : State) (d : Word) : Prop where
  address : storeAddress i s = some (s.pushAddress (s.reg .r7))
  writes : afterWrites i s =
    (s.setMem (s.pushAddress (s.reg .r7)) d).setReg .r7 (s.reg .r7 - 1#16)
  sequential : isControl i = false

theorem isPush_push (ra : Reg) (s : State) : IsPush (.push ra) s (s.reg ra) := ⟨rfl, rfl, rfl⟩

theorem isPush_pushLr (s : State) : IsPush .pushLr s s.lr := ⟨rfl, rfl, rfl⟩

namespace IsPush

variable {i : Instr} {s : State} {d : Word} (h : IsPush i s d)
include h

theorem lookup_effect :
    (effect i s).mem.lookup (s.pushAddress (s.reg .r7)).toNat = some d := by
  rw [effect, h.writes, State.setPc_mem, State.setReg_mem, State.setMem_mem,
    Memory.lookup_write_same]

theorem reg_r7_effect : (effect i s).reg .r7 = s.reg .r7 - 1#16 := by
  rw [effect, h.writes, State.reg_setPc, State.reg_setReg_same]

theorem readable_r7_effect : (effect i s).readable (.reg .r7) = true := by
  apply State.readable_of_marks
  rw [effect, h.writes, State.setPc_written, State.setReg_written, Bank.get_set_same]

/-- How a PUSH that may read its sources ends: out of range, refused, or complete (R213). -/
theorem outcome (hr : ∀ x ∈ reads i, s.readable x = true) {a : Word}
    (ha : s.pushAddress (s.reg .r7) = a) :
    (s.dataWords ≤ a.toNat → exec i s = .fault (.memoryOutOfRange a .data)) ∧
    (a.toNat < s.dataWords → s.textClash a = true →
      exec i s = .refused (.storeToProgramText a)) ∧
    (a.toNat < s.dataWords → s.textClash a = false →
      Completes i s (destRegs i) (flagsWritten i) (writesLr i) (some a) (fun t =>
        t.mem.lookup a.toNat = some d ∧ t.reg .r7 = s.reg .r7 - 1#16 ∧ InSequence s t)) := by
  subst ha
  refine ⟨fun hout => ?_, fun hin hc => ?_, fun hin hc => ?_⟩
  · exact exec_of_uninstalled_store hr h.address (not_installed_iff.2 hout)
  · exact exec_of_text_store hr h.address (installed_iff.2 hin) hc
  · have ready : Ready i s := ready_store hr h.address (installed_iff.2 hin) hc
    rw [← h.address]
    exact ready.completes ⟨h.lookup_effect, h.reg_r7_effect, effect_inSequence h.sequential s⟩

end IsPush

/-- Settles O54. -/
theorem pushResults : Obligations.PushResults := by
  intro s ra sp a pushes
  have ha : s.pushAddress (s.reg .r7) = a := rfl
  refine ⟨fun hsp => ⟨?_, ?_⟩, fun hsp => ⟨fun hd => ?_, fun hd => ?_, fun hd => ?_, fun hd => ?_⟩,
    fun w hw => ?_, fun w hw => ?_⟩
  · exact unreadableSourcesFault _ _ _ (by simp [reads, hsp])
  · exact unreadableSourcesFault _ _ _ (by simp [reads, hsp])
  · exact unreadableSourcesFault _ _ _ (by simp [reads, hsp, hd])
  · exact (isPush_push ra s).outcome (by simp [reads, hsp, hd]) ha
  · exact unreadableSourcesFault _ _ _ (by simp [reads, hsp, hd])
  · exact (isPush_pushLr s).outcome (by simp [reads, hsp, hd]) ha
  all_goals
    obtain ⟨hop, hl⟩ := opcode_l_of_six_high_bits hw
    simp [decode, hop, hl]

/-! ### POP -/

/-- In `s` the instruction is a POP: it reads R7 and then the word R7 gives (R203, R204). -/
structure IsPop (i : Instr) (s : State) : Prop where
  sources : reads i = [.reg .r7]
  address : loadAddress i s = some (s.popAddress (s.reg .r7))
  storesNothing : storeAddress i s = none

theorem isPop_pop (ra : Reg) (s : State) : IsPop (.pop ra) s := ⟨rfl, rfl, rfl⟩

theorem isPop_popLr (s : State) : IsPop .popLr s := ⟨rfl, rfl, rfl⟩

namespace IsPop

variable {i : Instr} {s : State} (h : IsPop i s) (hr : s.readable (.reg .r7) = true) {a : Word}
  (ha : s.popAddress (s.reg .r7) = a)
include h hr ha

/-- Where a POP that may read R7 stops: out of range, or at a word that has no value (R213). -/
theorem stops :
    (s.dataWords ≤ a.toNat → exec i s = .fault (.memoryOutOfRange a .data)) ∧
    (a.toNat < s.dataWords → s.textClash a = false → s.mem.lookup a.toNat = none →
      s.cfg.unwrittenRead = .fault → exec i s = .fault (.unwrittenRead (.memWord a))) := by
  have sources : ∀ x ∈ reads i, s.readable x = true := by simp [h.sources, hr]
  have address : loadAddress i s = some a := ha ▸ h.address
  refine ⟨fun hout => ?_, fun hin _ hnone hf => ?_⟩
  · exact exec_of_uninstalled_load sources address (not_installed_iff.2 hout)
  · have unwritten : s.Unwritten a := .inl hnone
    exact exec_of_unreadable_word sources address (installed_iff.2 hin) (unwritten.not_readable hf)

theorem ready {w : Word} (hi : s.installed a = true) (hv : s.loadValue a = some w) : Ready i s :=
  ready_load (by simp [h.sources, hr]) (ha ▸ h.address) h.storesNothing hi
    (by simp [State.readable, hv])

end IsPop

/-- A POP of another register moves R7 up (R203). -/
theorem reg_r7_effect_pop {ra : Reg} (hne : ra ≠ .r7) (s : State) :
    (effect (.pop ra) s).reg .r7 = s.reg .r7 + 1#16 := by
  rw [effect, afterWrites, State.reg_setPc, State.reg_setReg, if_neg hne.symm,
    State.reg_setReg_same]

theorem reg_r7_effect_popLr (s : State) : (effect .popLr s).reg .r7 = s.reg .r7 + 1#16 :=
  State.reg_setReg_same s .r7 _

theorem lr_effect_popLr (s : State) :
    (effect .popLr s).lr = s.truncPc (s.loaded (s.popAddress (s.reg .r7))) := rfl

theorem State.loaded_of_value {s : State} {a w : Word} (h : s.loadValue a = some w) :
    s.loaded a = w := by
  rw [loaded, h, Option.getD_some]

/-- Settles O55. -/
theorem popResults : Obligations.PopResults := by
  intro s ra sp a stops
  have ha : s.popAddress (s.reg .r7) = a := rfl
  refine ⟨fun hsp => ⟨?_, ?_⟩, fun hsp => ⟨(isPop_pop ra s).stops hsp ha,
    (isPop_popLr s).stops hsp ha, fun w hin hc hw => ?_⟩, fun w hw => ?_, fun w hw => ?_⟩
  · exact unreadableSourcesFault _ _ _ (by simp [reads, hsp])
  · exact unreadableSourcesFault _ _ _ (by simp [reads, hsp])
  · have hi : s.installed a = true := installed_iff.2 hin
    have hv : s.loadValue a = some w := loadValue_of_listed hc hw
    have hloaded : s.loaded (s.popAddress (s.reg .r7)) = w := State.loaded_of_value hv
    refine ⟨((isPop_pop ra s).ready hsp ha hi hv).completes ⟨?_, (reg_r7_effect_pop · s), ?_⟩,
      ((isPop_popLr s).ready hsp ha hi hv).completes ⟨?_, reg_r7_effect_popLr s, ?_⟩⟩
    · rw [reg_effect_pop, hloaded]
    · exact effect_inSequence rfl s
    · rw [lr_effect_popLr, hloaded]
    · exact effect_inSequence rfl s
  all_goals
    obtain ⟨hop, hl⟩ := opcode_l_of_six_high_bits hw
    simp [decode, hop, hl]

/-! ### POP after PUSH -/

namespace IsPush

variable {i j : Instr} {s : State} {d : Word} (h : IsPush i s d)
include h

/-- Under either order a POP right after a PUSH reads the word pushed (R200, R205). -/
theorem popAddress_effect :
    (effect i s).popAddress ((effect i s).reg .r7) = s.pushAddress (s.reg .r7) := by
  rw [h.reg_r7_effect, popAddress_after_push (effect_cfg i s)]

theorem loadValue_effect (ready : Ready i s) :
    (effect i s).loadValue (s.pushAddress (s.reg .r7)) = some d := by
  obtain ⟨-, hc⟩ := ready.store _ h.address
  have hclash : (effect i s).textClash (s.pushAddress (s.reg .r7)) = false := by
    rwa [State.textClash, effect_cfg, effect_imem]
  exact loadValue_of_listed hclash h.lookup_effect

/-- A POP right after a PUSH that went on goes on too. -/
theorem ready_pop (ready : Ready i s) (hj : IsPop j (effect i s)) : Ready j (effect i s) := by
  obtain ⟨hi, -⟩ := ready.store _ h.address
  have installed : (effect i s).installed (s.pushAddress (s.reg .r7)) = true := by
    rwa [installed_iff, dataWords_congr (effect_cfg i s), ← installed_iff]
  exact hj.ready h.readable_r7_effect h.popAddress_effect installed (h.loadValue_effect ready)

theorem loaded_effect (ready : Ready i s) :
    (effect i s).loaded ((effect i s).popAddress ((effect i s).reg .r7)) = d := by
  rw [h.popAddress_effect, State.loaded_of_value (h.loadValue_effect ready)]

/-- Moving R7 up undoes the PUSH's move (R205). -/
theorem reg_r7_restored : (effect i s).reg .r7 + 1#16 = s.reg .r7 := by
  rw [h.reg_r7_effect, BitVec.sub_add_cancel]

end IsPush

/-- Settles O56. -/
theorem popUndoesPush : Obligations.PopUndoesPush := by
  intro s t ra rd
  refine ⟨fun hpush => ?_, fun hpush hlr => ?_⟩
  · obtain ⟨ready, rfl⟩ := exec_next_iff.1 hpush
    have h := isPush_push ra s
    refine ⟨_, (h.ready_pop ready (isPop_pop rd _)).exec, ?_, fun hne => ?_⟩
    · rw [reg_effect_pop, h.loaded_effect ready]
    · rw [reg_r7_effect_pop hne, h.reg_r7_restored]
  · obtain ⟨ready, rfl⟩ := exec_next_iff.1 hpush
    have h := isPush_pushLr s
    refine ⟨_, (h.ready_pop ready (isPop_popLr _)).exec, ?_, ?_⟩
    · rw [lr_effect_popLr, h.loaded_effect ready, State.truncPc_congr (effect_cfg _ s),
        s.truncPc_of_lt _ hlr]
    · rw [reg_r7_effect_popLr, h.reg_r7_restored]

end Sys2Proof.Machine
end

section
/-! SUPPORT. What it means that a run ends, and that it ends in a fixed point (R210, R233). -/

namespace Sys2Proof.Machine

/-! ### The equations of `endsIn` -/

@[simp] theorem endsIn_of_ended {s : State} (h : s.ended = true) (k : Nat) : endsIn k s = some s := by
  cases k <;> simp [endsIn, h]

/-- Without fuel a run ends only where it stands. -/
theorem endsIn_zero_eq_some_iff {s t : State} : endsIn 0 s = some t ↔ s.ended = true ∧ s = t := by
  simp [endsIn]

/-- A run that has not ended goes on where its first step leads. -/
theorem endsIn_succ_of_next {s u : State} (h : s.ended = false) (hu : step s = .next u) (k : Nat) :
    endsIn (k + 1) s = endsIn k u := by
  simp [endsIn, h, hu]

/-- A run that has not ended and still ends did not stop at its first step. -/
theorem step_next_of_endsIn_succ {s t : State} {k : Nat} (h : s.ended = false)
    (hk : endsIn (k + 1) s = some t) : ∃ u, step s = .next u ∧ endsIn k u = some t := by
  cases hu : step s with
  | next u => exact ⟨u, rfl, endsIn_succ_of_next h hu k ▸ hk⟩
  | fault f => simp [endsIn, h, hu] at hk
  | refused r => simp [endsIn, h, hu] at hk

/-- What holds where a run begins, and is kept by every step, holds where the run ends. -/
theorem endsIn_induction {P : State → Prop} (keep : ∀ u v, P u → step u = .next v → P v) {k : Nat}
    {s t : State} (hs : P s) (hk : endsIn k s = some t) : t.ended = true ∧ P t := by
  induction k generalizing s with
  | zero =>
    obtain ⟨hended, rfl⟩ := endsIn_zero_eq_some_iff.1 hk
    exact ⟨hended, hs⟩
  | succ k ih =>
    cases hended : s.ended with
    | true =>
      obtain rfl : s = t := by simpa [hended] using hk
      exact ⟨hended, hs⟩
    | false =>
      obtain ⟨u, hu, hk⟩ := step_next_of_endsIn_succ hended hk
      exact ih (keep s u hs hu) hk

/-- More fuel does not change where a run ends. -/
theorem endsIn_add {k : Nat} {s t : State} (hk : endsIn k s = some t) (j : Nat) :
    endsIn (k + j) s = some t := by
  induction k generalizing s with
  | zero =>
    obtain ⟨hended, rfl⟩ := endsIn_zero_eq_some_iff.1 hk
    exact endsIn_of_ended hended _
  | succ k ih =>
    cases hended : s.ended with
    | true => simpa [hended] using hk
    | false =>
      obtain ⟨u, hu, hk⟩ := step_next_of_endsIn_succ hended hk
      rw [Nat.add_right_comm, endsIn_succ_of_next hended hu]
      exact ih hk

/-- Settles O53: every step keeps the invariant, so it holds on arrival; there PC fits its width, and
the step repeats the state (D28). -/
theorem runsEndInAFixedPoint : Obligations.RunsEndInAFixedPoint := by
  intro k s t hs hk
  obtain ⟨hended, ht⟩ := endsIn_induction (fun _ _ => step_keeps_inv) hs hk
  exact ⟨hended, ht, endOfRunRepeatsForEver t ht.pc_width hended, endsIn_add hk⟩

end Sys2Proof.Machine
end

section
/-! SUPPORT. What the words of a launched machine are, address by address (R230). -/

namespace Sys2Proof.Machine

/-- Of the data words written for one address the last stays; an address no data word names keeps
what it held. -/
theorem Memory.lookup_loadCells (cells : List (Nat × Word)) (m : Memory) (a : Nat) :
    (m.loadCells cells).lookup a =
      ((cells.reverse.find? (fun c => c.1 == a)).map (fun c => c.2)).or (m.lookup a) := by
  induction cells generalizing m with
  | nil => rfl
  | cons c rest ih =>
    have hrest : (m.loadCells (c :: rest)).lookup a =
        ((rest.reverse.find? (fun c => c.1 == a)).map (fun c => c.2)).or
          ((m.write c.1 c.2).lookup a) := ih (m.write c.1 c.2)
    rw [hrest, lookup_write, List.reverse_cons, List.find?_append]
    cases rest.reverse.find? (fun c => c.1 == a) with
    | some later => rfl
    | none =>
      by_cases hc : a = c.1
      · simp [hc]
      · simp [hc, Ne.symm hc]

namespace State

variable {cfg : Config} {base a : Nat} {text : List Word} {data : List (Nat × Word)}

/-- Under every organisation the text stands at its address. -/
theorem launch_imem_lookup_of_inText (h : base ≤ a ∧ a < base + text.length) :
    (launch cfg base text data).imem.lookup a = text[a - base]? := by
  by_cases hu : cfg.memOrg = .unified
  · rw [launch_imem_of_unified hu, Memory.lookup_load, if_pos h]
  · rw [launch_imem_of_not_unified hu, Memory.lookup_load, if_pos h]

/-- A program memory of its own holds nothing but the text. -/
theorem launch_imem_lookup_of_not_inText (hu : cfg.memOrg ≠ .unified)
    (h : ¬ (base ≤ a ∧ a < base + text.length)) :
    (launch cfg base text data).imem.lookup a = none := by
  rw [launch_imem_of_not_unified hu, Memory.lookup_load, if_neg h, Memory.lookup_nil]

/-- Data memory lists the data words the host defines, save where a unified array holds the text
(log 33). -/
theorem launch_mem_lookup
    (h : cfg.memOrg = .unified → ¬ (base ≤ a ∧ a < base + text.length)) :
    (launch cfg base text data).mem.lookup a =
      (data.reverse.find? (fun c => c.1 == a)).map (fun c => c.2) := by
  have hdata : (Memory.loadCells [] data).lookup a =
      (data.reverse.find? (fun c => c.1 == a)).map (fun c => c.2) := by
    rw [Memory.lookup_loadCells, Memory.lookup_nil, Option.or_none]
  by_cases hu : cfg.memOrg = .unified
  · rw [launch_mem_of_unified hu, launch_imem_of_unified hu, Memory.lookup_load, if_neg (h hu),
      hdata]
  · rw [launch_mem_of_not_unified hu, hdata]

end State

/-- Settles O12, word by word of the two memories; the marks are those of reset (O11). -/
theorem launchSuppliesProgramAndData : Obligations.LaunchSuppliesProgramAndData := by
  intro cfg base text data
  obtain ⟨-, hregs, hlr, hflags, -, -⟩ := resetLeavesEverythingUnwritten
  exact ⟨rfl, rfl,
    fun _ => State.launch_imem_lookup_of_inText,
    fun hu _ => State.launch_imem_lookup_of_not_inText hu,
    fun hu _ => State.launch_mem_lookup fun hu' => absurd hu' hu,
    fun hu _ => by rw [State.launch_mem_of_unified hu],
    fun _ _ hout => State.launch_mem_lookup fun _ => hout,
    hregs, hlr, hflags⟩

end Sys2Proof.Machine
end
